-- ==== Sys2Proof/Word.lean ====
section
/-! DEFINITION. The word types of the core: the byte every register and memory cell holds, and the 9-bit
program-counter word. All arithmetic on them that a rule of the spec gives stands in Decode.lean and Machine/. -/

namespace Sys2Proof

/-- `u8`, a value in 0 to 255 (00_scope.md R13): a register, a memory cell, an opcode, an operand. -/
abbrev Byte := BitVec 8

/-- `u9`, a value in 0 to 511 (00_scope.md R13): the program counter and a fault record's value (R9, R280). -/
abbrev PcWord := BitVec 9

end Sys2Proof
end

