-- ==== Sys2Proof/Config.lean ====
section
/-! DEFINITION. What is fixed for a run: the sizes of 00_scope.md R8, the option `ALU_EXT` (R10) and the reset
contents of R0 to R6 (R33, the OPEN parameter `REG_RESET`). The third configuration item, `OPCODE_MAP`, is the table
`opcodeMap` of Decode.lean (R11). The spec leaves no value of an instruction open, so there is no free value here. -/

namespace Sys2Proof

/-- `MEM_SIZE` (00_scope.md R8): 256 byte cells, addresses 0 to 255. -/
def memSize : Nat := 256

/-- `NREG` (00_scope.md R8): eight general registers. -/
def nReg : Nat := 8

/-- `SP_INDEX` (00_scope.md R8): register R7 is the stack pointer. -/
def spIndex : Fin 8 := 7

/-- `SP_RESET` (00_scope.md R8, 10_state.md R34): 255, which is `MEM_SIZE - 1`. -/
def spReset : Byte := 255#8

/-- The configuration of one core. -/
structure Config where
  /-- `ALU_EXT` (00_scope.md R10): whether SUB, AND, OR and XOR decode. -/
  aluExt : Bool
  /-- `REG_RESET` (10_state.md R33) restricted to its value-giving choices: what R0 to R6 hold at reset (log 3). -/
  regReset : Vector Byte 7
  deriving DecidableEq, Repr

/-- The configuration `State.reset` uses: `ALU_EXT = false` is the spec's normative value (R2, R10); zero in R0 to R6
is a DESIGN CHOICE, unsafe (log 3). -/
def Config.normative : Config := { aluExt := false, regReset := Vector.replicate 7 0#8 }

end Sys2Proof
end

