-- ==== Sys2Proof/Machine/State.lean ====
section
/-! DEFINITION. The architectural state (10_state.md), the fault record (60_exceptions.md R280), the reasons a step could
stop without a next state, and the machine right after reset (70_reset_and_hazards.md R320). Plain data throughout. -/

namespace Sys2Proof.Machine

open Sys2Proof

/-- Memory as (address, byte) pairs in one canonical form: addresses strictly rising and below 256, no listed byte
equal to 0, which is what an unlisted address reads as (20_memory.md R70, R88; log 11). -/
abbrev Memory := List Host.Cell

/-- The engine states (10_state.md R50, 40_cycle.md R140). -/
inductive EngineState where
  /-- The cycle repeats; the state after reset. -/
  | running
  /-- The clean stop of HLT; terminal. -/
  | halted
  /-- Execution ended by a fault; terminal. -/
  | faulted
  deriving DecidableEq, Repr

/-- The names of the spec's faults (60_exceptions.md R280); their numbers are `faultNumber` in Ops.lean. -/
inductive FaultCode where
  | outOfRange | invalidOpcode | stackOverflow | stackUnderflow | unsupportedOperation
  deriving DecidableEq, Repr

/-- The kinds of `OutOfRange` (60_exceptions.md R280). -/
inductive FaultKind where
  | fetch | register | value | data
  deriving DecidableEq, Repr

/-- The fault record (60_exceptions.md R280). -/
structure FaultRecord where
  /-- Which fault. -/
  code : FaultCode
  /-- The kind, for `OutOfRange` only. -/
  kind : Option FaultKind
  /-- `pc` at the start of the faulting step. -/
  pc : PcWord
  /-- The opcode byte; `none` when the opcode fetch itself faulted. -/
  opcode : Option Byte
  /-- The offending value; `none` only for `UnsupportedOperation`, for which R280 records none (log 9). -/
  value : Option PcWord
  deriving DecidableEq, Repr

/-- The machine's state (10_state.md, the tuple at its head), and the configuration bit `aluExt` beside it. -/
structure State where
  /-- `mem`: 256 byte cells (R53). -/
  mem : Memory
  /-- `x`: R0 to R7, with R7 the stack pointer (R30, R31). -/
  x : Vector Byte 8
  /-- `FL`: bit 0 E, bit 1 G, bit 2 L (R45). -/
  fl : Byte
  /-- `pc`: the program counter (R40). -/
  pc : PcWord
  /-- `state`: the engine state (R50). -/
  engine : EngineState
  /-- `fault`: the fault record, or none (R51). -/
  fault : Option FaultRecord
  /-- `outq`: the output port's stream, oldest value first (R58). -/
  outq : List Byte
  /-- `ALU_EXT` (00_scope.md R10): the spec's configuration, carried here as plain data and written by no step
  (DESIGN CHOICE, safe, log 1). -/
  aluExt : Bool
  deriving DecidableEq, Repr

/-- Why a step could end in a model-level fault. The core's own faults are not here: taking one is a next state whose
engine is `faulted` (60_exceptions.md R288; log 4). -/
inductive Fault where
  /-- 10_state.md R33's model-level fault, a read of a register among R0 to R6 that nothing has written. Raised by
  nothing in this model, which gives those registers a value at reset (log 3); kept because the spec names it. Safe. -/
  | unwrittenRegister (r : Fin 7)
  deriving DecidableEq, Repr

/-- Why a step could be refused. -/
inductive Refusal where
  /-- An instruction whose meaning is not written. Raised by no arm of `exec`: every row has its meaning. Safe. -/
  | notModelled (mnemonic : String)
  deriving DecidableEq, Repr

/-- The machine after reset under a configuration (70_reset_and_hazards.md R320). -/
def State.resetWith (c : Config) : State where
  mem := []
  x := #v[c.regReset[0], c.regReset[1], c.regReset[2], c.regReset[3], c.regReset[4], c.regReset[5], c.regReset[6], spReset]
  fl := 0#8
  pc := 0#9
  engine := .running
  fault := none
  outq := []
  aluExt := c.aluExt

/-- The machine right after reset in the normative configuration. The values of R0 to R6 are a DESIGN CHOICE, unsafe
(log 3); every other value is R320's. -/
def State.reset : State := State.resetWith Config.normative

end Sys2Proof.Machine
end

