-- ==== Sys2Proof/Machine/Flags.lean ====
section
/-! DEFINITION. The flags register FL (10_state.md R45 to R48): its three bits, and the value a comparison gives it. -/

namespace Sys2Proof.Machine

open Sys2Proof

/-- `FL.E`, bit 0 (10_state.md R45). -/
def flagE (fl : Byte) : Bool := fl.getLsbD 0

/-- `FL.G`, bit 1 (10_state.md R45). -/
def flagG (fl : Byte) : Bool := fl.getLsbD 1

/-- `FL.L`, bit 2 (10_state.md R45). -/
def flagL (fl : Byte) : Bool := fl.getLsbD 2

/-- The whole of FL after comparing `a` with `b`, both unsigned: exactly one of L, G, E (42_alu.md R191, R196). -/
def compareFlags (a b : Byte) : Byte :=
  if a.toNat < b.toNat then 0b00000100#8
  else if a.toNat > b.toNat then 0b00000010#8
  else 0b00000001#8

end Sys2Proof.Machine
end

