-- ==== Sys2Proof/Syntax.lean ====
section
/-! DEFINITION. The instructions: one constructor per row of spec/opcode_table.json, each with the operand bytes of
its format (30_encoding.md R103). A register operand is the WHOLE operand byte (R104): the spec gives an instruction
with an operand byte of 8 or more an effect, the fault `OutOfRange(REGISTER)`, so such an instruction exists. -/

namespace Sys2Proof

/-- The seventeen instructions, in the order of spec/opcode_table.json. -/
inductive Instr where
  /-- HLT, format N (R172). -/
  | hlt
  /-- RET, format N (R252). -/
  | ret
  /-- PUSH reg, format R (R233). -/
  | push (reg : Byte)
  /-- POP reg, format R (R234). -/
  | pop (reg : Byte)
  /-- PRN reg, format R (R171). -/
  | prn (reg : Byte)
  /-- CALL reg, format R (R251). -/
  | call (reg : Byte)
  /-- JMP reg, format R (R253). -/
  | jmp (reg : Byte)
  /-- JEQ reg, format R (R254). -/
  | jeq (reg : Byte)
  /-- JNE reg, format R (R255). -/
  | jne (reg : Byte)
  /-- LDI reg imm, format RI (R170). -/
  | ldi (reg imm : Byte)
  /-- ADD regA regB, format RR (R194). -/
  | add (regA regB : Byte)
  /-- SUB regA regB, format RR, `ALU_EXT` only (R197). -/
  | sub (regA regB : Byte)
  /-- MUL regA regB, format RR (R195). -/
  | mul (regA regB : Byte)
  /-- CMP regA regB, format RR (R196). -/
  | cmp (regA regB : Byte)
  /-- AND regA regB, format RR, `ALU_EXT` only (R198). -/
  | and (regA regB : Byte)
  /-- OR regA regB, format RR, `ALU_EXT` only (R199). -/
  | or (regA regB : Byte)
  /-- XOR regA regB, format RR, `ALU_EXT` only (R200). -/
  | xor (regA regB : Byte)
  deriving DecidableEq, Repr

end Sys2Proof
end

