-- ==== Sys2Proof/WellFormed.lean ====
section
/-! DEFINITION. Which instructions are well formed: every register operand names a register (10_state.md R35), and
under `ALU_EXT = false` the instruction is none of the four extension instructions (00_scope.md R7, R10). An instruction
that fails a check still has the meaning the spec gives it, a fault (log 6); the checks name where an instruction can
have its own effect. -/

namespace Sys2Proof

/-- The register operand bytes of an instruction, in operand order (30_encoding.md R103). LDI's `imm` is none. -/
def Instr.regOperands : Instr → List Byte
  | .hlt => []
  | .ret => []
  | .push r => [r]
  | .pop r => [r]
  | .prn r => [r]
  | .call r => [r]
  | .jmp r => [r]
  | .jeq r => [r]
  | .jne r => [r]
  | .ldi r _ => [r]
  | .add a b => [a, b]
  | .sub a b => [a, b]
  | .mul a b => [a, b]
  | .cmp a b => [a, b]
  | .and a b => [a, b]
  | .or a b => [a, b]
  | .xor a b => [a, b]

/-- Every register operand is in `[0, 8)` (10_state.md R35). -/
def Instr.regsValid (i : Instr) : Bool := i.regOperands.all fun r => decide (r.toNat < 8)

/-- Whether the instruction belongs to the `ALU_EXT` group (00_scope.md R2). -/
def Instr.isAluExt : Instr → Bool
  | .hlt => false
  | .ret => false
  | .push _ => false
  | .pop _ => false
  | .prn _ => false
  | .call _ => false
  | .jmp _ => false
  | .jeq _ => false
  | .jne _ => false
  | .ldi _ _ => false
  | .add _ _ => false
  | .sub _ _ => true
  | .mul _ _ => false
  | .cmp _ _ => false
  | .and _ _ => true
  | .or _ _ => true
  | .xor _ _ => true

/-- The instruction exists under the given `ALU_EXT` (00_scope.md R7, R10). -/
def Instr.present (aluExt : Bool) (i : Instr) : Bool := !i.isAluExt || aluExt

/-- Well formed under the given `ALU_EXT`: present, with valid register operands. -/
def Instr.wellFormed (aluExt : Bool) (i : Instr) : Bool := i.present aluExt && i.regsValid

end Sys2Proof
end

