-- ==== Sys2Proof/Decode.lean ====
section
/-! DEFINITION. Decoding and encoding (30_encoding.md). `opcodeMap` is the one configuration table from instruction
names to opcode bytes (R11, R107); the decoder and the encoder are both written from it. Decoding is total on any list
of bytes and rejects by name. -/

namespace Sys2Proof

/-- The names of the instructions, the rows of 30_encoding.md R107. -/
inductive Mnemonic where
  | hlt | ret | push | pop | prn | call | jmp | jeq | jne | ldi | add | sub | mul | cmp | and | or | xor
  deriving DecidableEq, Repr

/-- The four instruction formats (30_encoding.md R103). -/
inductive Format where
  /-- Opcode alone. -/
  | n
  /-- Opcode, register. -/
  | r
  /-- Opcode, register, immediate. -/
  | ri
  /-- Opcode, register, register. -/
  | rr
  deriving DecidableEq, Repr

/-- One row of the opcode map (30_encoding.md R107). -/
structure OpcodeRow where
  /-- The opcode byte. -/
  opcode : Byte
  /-- The instruction format. -/
  format : Format
  /-- "present when" is `ALU_EXT` rather than always. -/
  aluExtOnly : Bool
  deriving DecidableEq, Repr

/-- `OPCODE_MAP` (30_encoding.md R107). PRESUMED, unsafe: the spec marks the byte values as general knowledge
(92_eei_decisions.md D1; log 2). -/
def opcodeMap : Mnemonic → OpcodeRow
  | .hlt => ⟨0x01#8, .n, false⟩
  | .ret => ⟨0x11#8, .n, false⟩
  | .push => ⟨0x45#8, .r, false⟩
  | .pop => ⟨0x46#8, .r, false⟩
  | .prn => ⟨0x47#8, .r, false⟩
  | .call => ⟨0x50#8, .r, false⟩
  | .jmp => ⟨0x54#8, .r, false⟩
  | .jeq => ⟨0x55#8, .r, false⟩
  | .jne => ⟨0x56#8, .r, false⟩
  | .ldi => ⟨0x82#8, .ri, false⟩
  | .add => ⟨0xA0#8, .rr, false⟩
  | .sub => ⟨0xA1#8, .rr, true⟩
  | .mul => ⟨0xA2#8, .rr, false⟩
  | .cmp => ⟨0xA7#8, .rr, false⟩
  | .and => ⟨0xA8#8, .rr, true⟩
  | .or => ⟨0xAA#8, .rr, true⟩
  | .xor => ⟨0xAB#8, .rr, true⟩

/-- Every row of the map, in the order of spec/opcode_table.json. -/
def allMnemonics : List Mnemonic :=
  [.hlt, .ret, .push, .pop, .prn, .call, .jmp, .jeq, .jne, .ldi, .add, .sub, .mul, .cmp, .and, .or, .xor]

/-- The opcode byte of an instruction name. -/
def opcodeOf (m : Mnemonic) : Byte := (opcodeMap m).opcode

/-- Whether a row is present under the given `ALU_EXT` (30_encoding.md R107, R109). -/
def presentUnder (aluExt : Bool) (m : Mnemonic) : Bool := !(opcodeMap m).aluExtOnly || aluExt

/-- `nopnd(op)`: the number of operand bytes, `op[7:6]` (30_encoding.md R101). -/
def nopnd (op : Byte) : Nat := (op.extractLsb' 6 2).toNat

/-- `ilen(op) = ((op >> 6) & 0b11) + 1`: the instruction length in bytes (30_encoding.md R102, 90_conflicts.md C1). -/
def ilen (op : Byte) : Nat := ((op >>> 6) &&& 0b11#8).toNat + 1

/-- `decode(op, ALU_EXT)` (30_encoding.md R110): the instruction a whole opcode byte names, or `none` for `Invalid`. -/
def decodeOpcode (aluExt : Bool) (op : Byte) : Option Mnemonic :=
  allMnemonics.find? fun m => opcodeOf m == op && presentUnder aluExt m

/-- The operand bytes a format has (30_encoding.md R103). -/
def Format.operandCount : Format → Nat
  | .n => 0
  | .r => 1
  | .ri => 2
  | .rr => 2

/-- The instruction a name and its operand bytes make (30_encoding.md R103). A byte the format lacks is not used. -/
def assemble (m : Mnemonic) (b1 b2 : Byte) : Instr :=
  match m with
  | .hlt => .hlt
  | .ret => .ret
  | .push => .push b1
  | .pop => .pop b1
  | .prn => .prn b1
  | .call => .call b1
  | .jmp => .jmp b1
  | .jeq => .jeq b1
  | .jne => .jne b1
  | .ldi => .ldi b1 b2
  | .add => .add b1 b2
  | .sub => .sub b1 b2
  | .mul => .mul b1 b2
  | .cmp => .cmp b1 b2
  | .and => .and b1 b2
  | .or => .or b1 b2
  | .xor => .xor b1 b2

/-- Why a list of bytes is no instruction. -/
inductive DecodeError where
  /-- There is no opcode byte. -/
  | noOpcode
  /-- The opcode byte decodes to `Invalid` (30_encoding.md R111). -/
  | invalidOpcode (op : Byte)
  /-- The bytes end before operand byte `k` (1 or 2) of the instruction `op` names. -/
  | missingOperand (op : Byte) (k : Nat)
  deriving DecidableEq, Repr

/-- The outcome of decoding a list of bytes: an instruction with the bytes after it, or a rejection. -/
inductive Decoded where
  | instr (i : Instr) (rest : List Byte)
  | rejected (e : DecodeError)
  deriving DecidableEq, Repr

/-- Decode the instruction at the head of a list of bytes: the identity from the whole opcode byte (30_encoding.md
R110), checked before any operand is looked at (R112), then the `ilen(op) - 1` operand bytes and no other (40_cycle.md
R144). -/
def decode (aluExt : Bool) : List Byte → Decoded
  | [] => .rejected .noOpcode
  | op :: rest =>
    match decodeOpcode aluExt op with
    | none => .rejected (.invalidOpcode op)
    | some m =>
      if ilen op = 1 then .instr (assemble m 0#8 0#8) rest
      else
        match rest with
        | [] => .rejected (.missingOperand op 1)
        | b1 :: rest1 =>
          if ilen op = 2 then .instr (assemble m b1 0#8) rest1
          else
            match rest1 with
            | [] => .rejected (.missingOperand op 2)
            | b2 :: rest2 => .instr (assemble m b1 b2) rest2

/-- The row of the opcode map an instruction belongs to. -/
def mnemonicOf : Instr → Mnemonic
  | .hlt => .hlt
  | .ret => .ret
  | .push _ => .push
  | .pop _ => .pop
  | .prn _ => .prn
  | .call _ => .call
  | .jmp _ => .jmp
  | .jeq _ => .jeq
  | .jne _ => .jne
  | .ldi _ _ => .ldi
  | .add _ _ => .add
  | .sub _ _ => .sub
  | .mul _ _ => .mul
  | .cmp _ _ => .cmp
  | .and _ _ => .and
  | .or _ _ => .or
  | .xor _ _ => .xor

/-- The operand bytes of an instruction at ascending addresses (20_memory.md R75, 30_encoding.md R103). -/
def operandBytes : Instr → List Byte
  | .hlt => []
  | .ret => []
  | .push r => [r]
  | .pop r => [r]
  | .prn r => [r]
  | .call r => [r]
  | .jmp r => [r]
  | .jeq r => [r]
  | .jne r => [r]
  | .ldi r v => [r, v]
  | .add a b => [a, b]
  | .sub a b => [a, b]
  | .mul a b => [a, b]
  | .cmp a b => [a, b]
  | .and a b => [a, b]
  | .or a b => [a, b]
  | .xor a b => [a, b]

/-- The bytes of an instruction: its opcode, then its operands (30_encoding.md R100). -/
def encode (i : Instr) : List Byte := opcodeOf (mnemonicOf i) :: operandBytes i

/-- Whether a byte is the opcode of a row that is present only under `ALU_EXT` (30_encoding.md R109). -/
def isAluExtOpcode (op : Byte) : Bool := allMnemonics.any fun m => opcodeOf m == op && (opcodeMap m).aluExtOnly

/-- The three bytes of an instruction whose bits are `w`, byte 0 the least significant, every bit from `nbits` up
zero: a byte each, at ascending addresses (20_memory.md R75). Three is `MAX_ILEN` (00_scope.md R8). -/
def tableBytes (nbits w : Nat) : List Byte :=
  let v := w % 2 ^ nbits
  [BitVec.ofNat 8 v, BitVec.ofNat 8 (v / 2 ^ 8), BitVec.ofNat 8 (v / 2 ^ 16)]

/-- The instruction the decoder reads from a table word. The four rows that the table enables only under `ALU_EXT` are
read in the configuration that has them; no other row depends on it (30_encoding.md R109; log 12). -/
def decodeTableWord (nbits w : Nat) : Option Instr :=
  match decode true (tableBytes nbits w) with
  | .instr i _ => some i
  | .rejected _ => none

end Sys2Proof
end

