-- ==== Sys2Proof/Machine/Ops.lean ====
section
/-! DEFINITION. The named operations over faults, memory, registers, the program counter, the stack and the output port,
on which every meaning is built. A check that can raise answers `Except Raise _`; `finish` turns the result into the
step's outcome, with the one shared fault entry `takeFault`. -/

namespace Sys2Proof.Machine

open Sys2Proof

/-! ## Faults (60_exceptions.md) -/

/-- What a `raise` names (60_exceptions.md R280): the fault, its kind and the offending value. -/
structure Raise where
  code : FaultCode
  kind : Option FaultKind
  value : Option PcWord
  deriving DecidableEq, Repr

/-- `OutOfRange(kind, value)` (60_exceptions.md R281). -/
def outOfRange (kind : FaultKind) (value : Nat) : Raise := ⟨.outOfRange, some kind, some (BitVec.ofNat 9 value)⟩

/-- `InvalidOpcode(value = op)` (60_exceptions.md R282). -/
def invalidOpcode (op : Byte) : Raise := ⟨.invalidOpcode, none, some (op.setWidth 9)⟩

/-- `StackOverflow(value = SP)` (60_exceptions.md R283). -/
def stackOverflow (sp : Byte) : Raise := ⟨.stackOverflow, none, some (sp.setWidth 9)⟩

/-- `StackUnderflow(value = SP)` (60_exceptions.md R284). -/
def stackUnderflow (sp : Byte) : Raise := ⟨.stackUnderflow, none, some (sp.setWidth 9)⟩

/-- `UnsupportedOperation` (60_exceptions.md R285): no value is recorded (R280). -/
def unsupportedOperation : Raise := ⟨.unsupportedOperation, none, none⟩

/-- The number of a fault code (60_exceptions.md R280). -/
def faultNumber : FaultCode → Byte
  | .outOfRange => 1#8
  | .invalidOpcode => 2#8
  | .stackOverflow => 3#8
  | .stackUnderflow => 4#8
  | .unsupportedOperation => 5#8

/-- TAKING A FAULT (60_exceptions.md R288): the engine becomes Faulted and the record is written with the `pc` of the
step's start; nothing else changes. There is no handler, no saved register and no return (R289, R290). -/
def takeFault (r : Raise) (opcode : Option Byte) (s : State) : State :=
  { s with
    engine := .faulted
    fault := some { code := r.code, kind := r.kind, pc := s.pc, opcode := opcode, value := r.value } }

/-- End an instruction: its next state, or the fault it raised, taken from the state `s` the step STARTED in, so that
no partial effect survives (60_exceptions.md R288, D11). -/
def finish (op : Byte) (s : State) (result : Except Raise State) : Host.Outcome State Fault Refusal :=
  match result with
  | .ok t => .next t
  | .error r => .next (takeFault r (some op) s)

/-! ## Memory (20_memory.md) -/

/-- What a memory cell that nothing has written reads as (20_memory.md R88: every cell is 0 at reset). -/
def memDefault : Byte := 0#8

/-- The byte at an address: the listed one, else `memDefault`. -/
def Memory.read : Memory → Nat → Byte
  | [], _ => memDefault
  | (k, v) :: m, a => if k = a then v else Memory.read m a

/-- Memory with the byte at `a` replaced by `v`, the canonical form kept: in a list sorted by address the entry is
replaced, inserted, or, where `v` is `memDefault`, left out. -/
def Memory.write : Memory → Nat → Byte → Memory
  | [], a, v => if v = memDefault then [] else [(a, v)]
  | (k, w) :: m, a, v =>
    if k < a then (k, w) :: Memory.write m a v
    else
      let rest := if k = a then m else (k, w) :: m
      if v = memDefault then rest else (a, v) :: rest

/-- The canonical form, from a lower bound on: addresses strictly rising and below 256, no listed `memDefault`. -/
def Memory.wfFrom : Nat → Memory → Bool
  | _, [] => true
  | lo, (k, v) :: m => decide (lo ≤ k) && decide (k < memSize) && !(v == memDefault) && Memory.wfFrom (k + 1) m

/-- The canonical form of memory (log 11). -/
def Memory.wf (m : Memory) : Bool := Memory.wfFrom 0 m

/-- `MemRead(a, 1)` (20_memory.md R71): the byte at `a`, or `OutOfRange(kind)` where there is no such address. -/
def memRead (kind : FaultKind) (m : Memory) (a : Nat) : Except Raise Byte :=
  if a > 255 then .error (outOfRange kind a) else .ok (Memory.read m a)

/-- `MemWrite(a, 1, v)` (20_memory.md R71): memory with `v` at `a`, or `OutOfRange(DATA)` where there is no such
address; only stack accesses write. -/
def memWrite (m : Memory) (a : Nat) (v : Byte) : Except Raise Memory :=
  if a > 255 then .error (outOfRange .data a) else .ok (Memory.write m a v)

/-- Bytes placed at ascending addresses from `a`, those at addresses the space does not have left out. -/
def placeBytes (m : Memory) (a : Nat) : List Byte → Memory
  | [] => m
  | b :: bs => if a < memSize then placeBytes (Memory.write m a b) (a + 1) bs else m

/-! ## Registers (10_state.md R30 to R38) -/

/-- `x[i]` (00_scope.md R14). -/
def readReg (s : State) (i : Fin 8) : Byte := s.x[i]

/-- `x[i] <- v` (00_scope.md R14). -/
def writeReg (s : State) (i : Fin 8) (v : Byte) : State := { s with x := s.x.set i v }

/-- `SP`, another name for `x[7]` (00_scope.md R14, 10_state.md R31). -/
def State.sp (s : State) : Byte := readReg s spIndex

/-! ## The program counter and the next-pc multiplexer (40_cycle.md R149) -/

/-- `zext_9` (00_scope.md R13). -/
def zext9 (v : Byte) : PcWord := v.setWidth 9

/-- Input `SEQ`: `pc <- pc + ilen(op)`, 9 bits, no wrap at 256 (40_cycle.md R146, R149; log 10). -/
def advance (m : Mnemonic) (s : State) : State := { s with pc := s.pc + BitVec.ofNat 9 (ilen (opcodeOf m)) }

/-- Inputs `REG` and `STK`: `pc <- zext_9(target)` (40_cycle.md R149). -/
def jumpTo (target : Byte) (s : State) : State := { s with pc := zext9 target }

/-! ## The stack (43_stack.md) -/

/-- The stack bound of PUSH and CALL: `SP == 0` raises `StackOverflow` (43_stack.md R231). -/
def stackRoom (s : State) : Except Raise Unit :=
  if s.sp = 0#8 then .error (stackOverflow s.sp) else .ok ()

/-- The stack bound of POP and RET: `SP == 255` raises `StackUnderflow` (43_stack.md R232). -/
def stackItem (s : State) : Except Raise Unit :=
  if s.sp = 255#8 then .error (stackUnderflow s.sp) else .ok ()

/-- A push writes the slot at SP and then decrements SP (43_stack.md R230). Its bound, `stackRoom`, is checked apart,
because CALL has a check between the two (60_exceptions.md R292). -/
def pushByte (v : Byte) (s : State) : Except Raise State := do
  let mem ← memWrite s.mem s.sp.toNat v
  .ok (writeReg { s with mem := mem } spIndex (s.sp - 1#8))

/-- A pop increments SP and then reads the slot at SP, and leaves the cell as it is (43_stack.md R230, R232). -/
def popByte (s : State) : Except Raise (Byte × State) := do
  stackItem s
  let t := writeReg s spIndex (s.sp + 1#8)
  let v ← memRead .data t.mem t.sp.toNat
  .ok (v, t)

/-! ## The output port (10_state.md R58) -/

/-- `out(v)`: append a byte to the output stream. -/
def emit (v : Byte) (s : State) : State := { s with outq := s.outq ++ [v] }

end Sys2Proof.Machine
end

