-- ==== Sys2Proof/Machine/Operands.lean ====
section
/-! DEFINITION. The operand forms of 30_encoding.md R103: one register, two registers, and the immediate, which is the
operand byte itself, unsigned and unchanged (R105). -/

namespace Sys2Proof.Machine

open Sys2Proof

/-- A register operand: the whole byte is the index, and 8 or more raises `OutOfRange(REGISTER)` (10_state.md R35,
30_encoding.md R104). -/
def regOperand (b : Byte) : Except Raise (Fin 8) :=
  if h : b.toNat < 8 then .ok ⟨b.toNat, h⟩ else .error (outOfRange .register b.toNat)

/-- `RRcheck()` (42_alu.md section 2): `regA` first, then `regB`. -/
def rrOperands (regA regB : Byte) : Except Raise (Fin 8 × Fin 8) := do
  let ra ← regOperand regA
  let rb ← regOperand regB
  .ok (ra, rb)

/-- CALL's return address `pc + 2`, computed without wrap: it must be a byte, else `OutOfRange(VALUE)` (44_control.md
R251, 20_memory.md R72). -/
def returnAddress (s : State) : Except Raise Byte :=
  if s.pc.toNat + 2 > 255 then .error (outOfRange .value (s.pc.toNat + 2))
  else .ok (BitVec.ofNat 8 (s.pc.toNat + 2))

end Sys2Proof.Machine
end

