-- ==== Sys2Proof/Machine/Alu.lean ====
section
/-! DEFINITION. The ALU function and the register-register instructions (42_alu.md): ADD, MUL, CMP, and, where
`ALU_EXT` is on, SUB, AND, OR, XOR. -/

namespace Sys2Proof.Machine

open Sys2Proof

/-- The ALU's operation select (42_alu.md R190); its encoding is unobservable (D23; log 8). -/
inductive AluOp where
  | add | sub | mul | and | or | xor | cmp
  deriving DecidableEq, Repr

/-- The ALU's outputs (42_alu.md R190): a result for every operation but CMP, flags for CMP only. -/
inductive AluOut where
  /-- `res`, written to `x[regA]`. -/
  | res (v : Byte)
  /-- `fl`, written to FL. -/
  | fl (v : Byte)
  deriving DecidableEq, Repr

/-- The ALU operations (42_alu.md R191, R201): unsigned, 8 bits, silently modulo 256. -/
def alu (f : AluOp) (a b : Byte) : AluOut :=
  match f with
  | .add => .res (a + b)
  | .sub => .res (a - b)
  | .mul => .res (a * b)
  | .and => .res (a &&& b)
  | .or => .res (a ||| b)
  | .xor => .res (a ^^^ b)
  | .cmp => .fl (compareFlags a b)

/-- A request to the ALU: `none` stands for an operation outside its set, which raises `UnsupportedOperation`
(42_alu.md R192). No instruction makes such a request (log 8). -/
def aluRequest (f : Option AluOp) (a b : Byte) : Except Raise AluOut :=
  match f with
  | some f => .ok (alu f a b)
  | none => .error unsupportedOperation

/-- Where an ALU output goes (42_alu.md R190). -/
def writeAluOut (ra : Fin 8) (out : AluOut) (s : State) : State :=
  match out with
  | .res v => writeReg s ra v
  | .fl v => { s with fl := v }

/-- A register-register instruction (42_alu.md section 2): check `regA` then `regB`, read both sources, ask the ALU,
write its output, `pc <- pc + 3`. -/
def aluBody (m : Mnemonic) (f : Option AluOp) (regA regB : Byte) (s : State) : Except Raise State := do
  let (ra, rb) ← rrOperands regA regB
  let out ← aluRequest f (readReg s ra) (readReg s rb)
  .ok (advance m (writeAluOut ra out s))

/-- An instruction of the `ALU_EXT` group: with `ALU_EXT = false` its opcode raises `InvalidOpcode` instead (42_alu.md
section 3, 30_encoding.md R109; log 7). -/
def aluExtBody (m : Mnemonic) (f : Option AluOp) (regA regB : Byte) (s : State) : Except Raise State :=
  if s.aluExt then aluBody m f regA regB s else .error (invalidOpcode (opcodeOf m))

/-- ADD (42_alu.md R194): `x[ra] <- (x[ra] + x[rb]) mod 256`. -/
def execAdd (regA regB : Byte) (s : State) : Host.Outcome State Fault Refusal :=
  finish (opcodeOf .add) s (aluBody .add (some .add) regA regB s)

/-- MUL (42_alu.md R195): `x[ra] <- (x[ra] * x[rb]) mod 256`. -/
def execMul (regA regB : Byte) (s : State) : Host.Outcome State Fault Refusal :=
  finish (opcodeOf .mul) s (aluBody .mul (some .mul) regA regB s)

/-- CMP (42_alu.md R196): FL is replaced by exactly one of L, G, E. -/
def execCmp (regA regB : Byte) (s : State) : Host.Outcome State Fault Refusal :=
  finish (opcodeOf .cmp) s (aluBody .cmp (some .cmp) regA regB s)

/-- SUB (42_alu.md R197): `x[ra] <- (x[ra] - x[rb]) mod 256`, under `ALU_EXT`. -/
def execSub (regA regB : Byte) (s : State) : Host.Outcome State Fault Refusal :=
  finish (opcodeOf .sub) s (aluExtBody .sub (some .sub) regA regB s)

/-- AND (42_alu.md R198): `x[ra] <- x[ra] & x[rb]`, under `ALU_EXT`. -/
def execAnd (regA regB : Byte) (s : State) : Host.Outcome State Fault Refusal :=
  finish (opcodeOf .and) s (aluExtBody .and (some .and) regA regB s)

/-- OR (42_alu.md R199): bitwise or, under `ALU_EXT`. -/
def execOr (regA regB : Byte) (s : State) : Host.Outcome State Fault Refusal :=
  finish (opcodeOf .or) s (aluExtBody .or (some .or) regA regB s)

/-- XOR (42_alu.md R200): `x[ra] <- x[ra] ^ x[rb]`, under `ALU_EXT`. -/
def execXor (regA regB : Byte) (s : State) : Host.Outcome State Fault Refusal :=
  finish (opcodeOf .xor) s (aluExtBody .xor (some .xor) regA regB s)

end Sys2Proof.Machine
end

