-- ==== Sys2Proof/Machine/Control.lean ====
section
/-! DEFINITION. Control transfer: CALL, RET, JMP, JEQ, JNE (44_control.md). Every target is absolute and every byte is a
legal one (R250). -/

namespace Sys2Proof.Machine

open Sys2Proof

/-- CALL (44_control.md R251): `MemWrite(SP, pc + 2); SP <- SP - 1; pc <- x[reg]`, the target read AFTER the decrement,
so that `CALL R7` jumps to the decremented SP. -/
def execCall (reg : Byte) (s : State) : Host.Outcome State Fault Refusal :=
  finish (opcodeOf .call) s do
    let r ← regOperand reg
    stackRoom s
    let ret ← returnAddress s
    let t ← pushByte ret s
    .ok (jumpTo (readReg t r) t)

/-- RET (44_control.md R252): `SP <- SP + 1; pc <- MemRead(SP)`. -/
def execRet (s : State) : Host.Outcome State Fault Refusal :=
  finish (opcodeOf .ret) s do
    let (v, t) ← popByte s
    .ok (jumpTo v t)

/-- JMP (44_control.md R253): `pc <- x[reg]`. -/
def execJmp (reg : Byte) (s : State) : Host.Outcome State Fault Refusal :=
  finish (opcodeOf .jmp) s do
    let r ← regOperand reg
    .ok (jumpTo (readReg s r) s)

/-- The conditional-branch multiplexer (40_cycle.md R149): `REG` when taken, `SEQ` when not; the register operand is
checked either way (D24). -/
def branchBody (m : Mnemonic) (taken : Bool) (reg : Byte) (s : State) : Except Raise State := do
  let r ← regOperand reg
  .ok (if taken then jumpTo (readReg s r) s else advance m s)

/-- JEQ (44_control.md R254): taken when `FL.E = 1`. -/
def execJeq (reg : Byte) (s : State) : Host.Outcome State Fault Refusal :=
  finish (opcodeOf .jeq) s (branchBody .jeq (flagE s.fl) reg s)

/-- JNE (44_control.md R255): taken when `FL.E = 0`. -/
def execJne (reg : Byte) (s : State) : Host.Outcome State Fault Refusal :=
  finish (opcodeOf .jne) s (branchBody .jne (!flagE s.fl) reg s)

end Sys2Proof.Machine
end

