-- ==== Sys2Proof/Machine/DataIo.lean ====
section
/-! DEFINITION. Load-immediate, output and halt: LDI, PRN, HLT (41_data_io.md). -/

namespace Sys2Proof.Machine

open Sys2Proof

/-- LDI (41_data_io.md R170): `x[reg] <- imm; pc <- pc + 3`. -/
def execLdi (reg imm : Byte) (s : State) : Host.Outcome State Fault Refusal :=
  finish (opcodeOf .ldi) s do
    let r ← regOperand reg
    .ok (advance .ldi (writeReg s r imm))

/-- PRN (41_data_io.md R171): `out(x[reg]); pc <- pc + 2`. -/
def execPrn (reg : Byte) (s : State) : Host.Outcome State Fault Refusal :=
  finish (opcodeOf .prn) s do
    let r ← regOperand reg
    .ok (advance .prn (emit (readReg s r) s))

/-- HLT (41_data_io.md R172): `state <- Halted; pc <- pc + 1`. -/
def execHlt (s : State) : Host.Outcome State Fault Refusal :=
  finish (opcodeOf .hlt) s (.ok (advance .hlt { s with engine := .halted }))

end Sys2Proof.Machine
end

