-- ==== Sys2Proof/Machine/Stack.lean ====
section
/-! DEFINITION. PUSH and POP (43_stack.md). -/

namespace Sys2Proof.Machine

open Sys2Proof

/-- PUSH (43_stack.md R233): `MemWrite(SP, x[reg]); SP <- SP - 1; pc <- pc + 2`. `PUSH R7` stores the SP of before the
decrement. -/
def execPush (reg : Byte) (s : State) : Host.Outcome State Fault Refusal :=
  finish (opcodeOf .push) s do
    let r ← regOperand reg
    stackRoom s
    let t ← pushByte (readReg s r) s
    .ok (advance .push t)

/-- POP (43_stack.md R234): `SP <- SP + 1; x[reg] <- MemRead(SP); pc <- pc + 2`. `POP R7` ends with the popped byte in
SP. -/
def execPop (reg : Byte) (s : State) : Host.Outcome State Fault Refusal :=
  finish (opcodeOf .pop) s do
    let r ← regOperand reg
    let (v, t) ← popByte s
    .ok (advance .pop (writeReg t r v))

end Sys2Proof.Machine
end

