-- ==== Sys2Proof/Machine/Dispatch.lean ====
section
/-! DEFINITION. The dispatch (40_cycle.md R145): each instruction to exactly one meaning. -/

namespace Sys2Proof.Machine

open Sys2Proof

def exec (i : Instr) (s : State) : Host.Outcome State Fault Refusal :=
  match i with
  | .hlt => Sys2Proof.Machine.execHlt s
  | .ret => Sys2Proof.Machine.execRet s
  | .push reg => Sys2Proof.Machine.execPush reg s
  | .pop reg => Sys2Proof.Machine.execPop reg s
  | .prn reg => Sys2Proof.Machine.execPrn reg s
  | .call reg => Sys2Proof.Machine.execCall reg s
  | .jmp reg => Sys2Proof.Machine.execJmp reg s
  | .jeq reg => Sys2Proof.Machine.execJeq reg s
  | .jne reg => Sys2Proof.Machine.execJne reg s
  | .ldi reg imm => Sys2Proof.Machine.execLdi reg imm s
  | .add regA regB => Sys2Proof.Machine.execAdd regA regB s
  | .sub regA regB => Sys2Proof.Machine.execSub regA regB s
  | .mul regA regB => Sys2Proof.Machine.execMul regA regB s
  | .cmp regA regB => Sys2Proof.Machine.execCmp regA regB s
  | .and regA regB => Sys2Proof.Machine.execAnd regA regB s
  | .or regA regB => Sys2Proof.Machine.execOr regA regB s
  | .xor regA regB => Sys2Proof.Machine.execXor regA regB s

end Sys2Proof.Machine
end

