-- ==== Sys2Proof/Machine/Fetch.lean ====
section
/-! DEFINITION. Parts 1 to 3 of the step (40_cycle.md R147): fetch the opcode, decode it, fetch the operand bytes the
instruction has and no others. -/

namespace Sys2Proof.Machine

open Sys2Proof

/-- What fetching gives: an instruction, or a fault with the opcode its record holds (`none` where the opcode fetch
itself failed, 60_exceptions.md R280). -/
inductive Fetched where
  | instr (i : Instr)
  | raised (r : Raise) (opcode : Option Byte)
  deriving DecidableEq, Repr

/-- The operand bytes at `a`, `a + 1`, …, as many as asked for; the first address above 255 raises `OutOfRange(FETCH)`
(40_cycle.md R144, R147). -/
def fetchOperands (m : Memory) (a : Nat) : Nat → Except Raise (List Byte)
  | 0 => .ok []
  | n + 1 => do
    let b ← memRead .fetch m a
    let bs ← fetchOperands m (a + 1) n
    .ok (b :: bs)

/-- Fetch and decode the instruction at `pc` (40_cycle.md R142, R143, R144, in R147's order). -/
def fetch (s : State) : Fetched :=
  match memRead .fetch s.mem s.pc.toNat with
  | .error r => .raised r none
  | .ok op =>
    match decodeOpcode s.aluExt op with
    | none => .raised (invalidOpcode op) (some op)
    | some m =>
      match fetchOperands s.mem (s.pc.toNat + 1) (ilen op - 1) with
      | .error r => .raised r (some op)
      | .ok bs => .instr (assemble m (bs.getD 0 0#8) (bs.getD 1 0#8))

/-- The bytes at `a`, `a + 1`, …, `n` of them. -/
def bytesFrom (m : Memory) (a : Nat) : Nat → List Byte
  | 0 => []
  | n + 1 => Memory.read m a :: bytesFrom m (a + 1) n

/-- The bytes from `pc` to the last address, what a decoder of the state's code sees (20_memory.md R75). -/
def codeBytes (s : State) : List Byte := bytesFrom s.mem s.pc.toNat (memSize - s.pc.toNat)

end Sys2Proof.Machine
end

