-- ==== Sys2Proof/Machine/Step.lean ====
section
/-! DEFINITION. One architectural step (40_cycle.md R147), and the state with a given instruction where the step
fetches. -/

namespace Sys2Proof.Machine

open Sys2Proof

/-- One step. While Running: fetch, decode, execute, every fault taken as R288 says. In Halted and Faulted the core has
no step, so nothing changes (40_cycle.md R141; log 5). -/
def step (s : State) : Host.Outcome State Fault Refusal :=
  match s.engine with
  | .running =>
    match fetch s with
    | .instr i => exec i s
    | .raised r opcode => .next (takeFault r opcode s)
  | .halted => .next s
  | .faulted => .next s

/-- `s` with the instruction whose bits are `w` at `pc`, where the next step fetches. For an opcode that the table
enables only under `ALU_EXT`, the configuration is the one that has it; otherwise it is left as it is (log 12). The
step then runs that instruction when the engine is Running and `pc + 2` is an address, as at reset. -/
def State.withFetchWord (s : State) (nbits w : Nat) : State :=
  { s with
    mem := placeBytes s.mem s.pc.toNat (tableBytes nbits w)
    aluExt := s.aluExt || (tableBytes nbits w).head?.any isAluExtOpcode }

end Sys2Proof.Machine
end

