-- ==== Sys2Proof/Machine/Launch.lean ====
section
/-! DEFINITION. The host's side of the block interfaces (10_state.md R60): load, launch, status, inspect, the rendering
of output, and the loader's text format. No step uses them. -/

namespace Sys2Proof.Machine

open Sys2Proof

/-- `load(image)` (20_memory.md R85): `mem[i] <- image[i]`, the cells from the image's length on unchanged. An image
longer than 256 bytes has no launch (R87). -/
def loadImage (image : List Byte) (s : State) : Option State :=
  if image.length ≤ memSize then some { s with mem := placeBytes s.mem 0 image } else none

/-- A launch (70_reset_and_hazards.md R322): reset, then load. -/
def launch (c : Config) (image : List Byte) : Option State := loadImage image (State.resetWith c)

/-- `status` (10_state.md R60): the engine state and the fault record, at any time. -/
def status (s : State) : EngineState × Option FaultRecord := (s.engine, s.fault)

/-- The fault code number the host reads: 0 for no fault (60_exceptions.md R280). -/
def statusNumber (s : State) : Byte :=
  match s.fault with
  | none => 0#8
  | some f => faultNumber f.code

/-- What `inspect` shows (10_state.md R60). -/
structure Inspection where
  mem : Memory
  x : Vector Byte 8
  fl : Byte
  pc : PcWord
  deriving DecidableEq, Repr

/-- `inspect` (10_state.md R60, R61): a view of `mem`, `x`, `FL` and `pc`, only when Halted or Faulted. -/
def inspect (s : State) : Option Inspection :=
  match s.engine with
  | .running => none
  | .halted => some ⟨s.mem, s.x, s.fl, s.pc⟩
  | .faulted => some ⟨s.mem, s.x, s.fl, s.pc⟩

/-- The host's rendering of the output stream (10_state.md R58): a decimal integer for each value, one a line, in
execution order. -/
def renderOutput (outq : List Byte) : List String := outq.map fun v => Nat.repr v.toNat

/-- The value of a binary digit, or none (20_memory.md R86). -/
def binaryDigit (c : Char) : Option Nat :=
  if c = '0' then some 0 else if c = '1' then some 1 else none

/-- A base-2 number, most significant digit first (30_encoding.md R122); none where a character is no binary digit. -/
def parseBinary : Nat → List Char → Option Nat
  | acc, [] => some acc
  | acc, c :: cs =>
    match binaryDigit c with
    | some d => parseBinary (2 * acc + d) cs
    | none => none

/-- The loader's text format (20_memory.md R86): a line whose first character is a decimal digit gives the byte its first
8 characters spell in base 2; every other line is ignored. A malformed line refuses the launch (93_implementation_defined.md
I10); a line of fewer than 8 characters counts as malformed (DESIGN CHOICE, log 14). -/
def parseProgram : List (List Char) → Option (List Byte)
  | [] => some []
  | line :: lines =>
    if line.head?.any Char.isDigit then
      if line.length < 8 then none
      else
        match parseBinary 0 (line.take 8), parseProgram lines with
        | some v, some bs => some (BitVec.ofNat 8 v :: bs)
        | _, _ => none
    else parseProgram lines

end Sys2Proof.Machine
end

