-- ==== Sys2Proof/Safety.lean ====
section
/-! DEFINITION. What claims are said in: the ends of a run, the invariant that every step keeps, and the spec's tables
of what an instruction may write, where it goes next and which fault comes first, written apart from the meanings. -/

namespace Sys2Proof

open Sys2Proof.Machine

/-- The run has ended (40_cycle.md R150). -/
def Ended (s : State) : Prop := s.engine = .halted ∨ s.engine = .faulted

/-- FL is one of 0, 1, 2 and 4 (10_state.md R46). -/
def FlagsLegal (s : State) : Prop := s.fl = 0#8 ∨ s.fl = 1#8 ∨ s.fl = 2#8 ∨ s.fl = 4#8

/-- `pc` is 0 to 256 (10_state.md R43, 40_cycle.md R142). -/
def PcLegal (s : State) : Prop := s.pc.toNat ≤ 256

/-- The record is one that a row of 60_exceptions.md R280 allows, those of the two unreachable rows left out:
an address of 256 for FETCH, an operand byte of 8 to 255 for REGISTER, 256 for VALUE (CALL at 254), an opcode that
decodes to `Invalid`, SP 0 for an overflow and SP 255 for an underflow. -/
def RecordLegal (aluExt : Bool) (f : FaultRecord) : Prop :=
  match f.code, f.kind, f.opcode, f.value with
  | .outOfRange, some .fetch, none, some v => v = 256#9 ∧ f.pc = 256#9
  | .outOfRange, some .fetch, some op, some v =>
    v = 256#9 ∧ (decodeOpcode aluExt op).isSome ∧ f.pc.toNat ≤ 255 ∧ 256 < f.pc.toNat + ilen op
  | .outOfRange, some .register, some op, some v => (decodeOpcode aluExt op).isSome ∧ 8 ≤ v.toNat ∧ v.toNat ≤ 255
  | .outOfRange, some .value, some op, some v => op = opcodeOf .call ∧ v = 256#9 ∧ f.pc = 254#9
  | .invalidOpcode, none, some op, some v => v = op.setWidth 9 ∧ decodeOpcode aluExt op = none
  | .stackOverflow, none, some op, some v => (op = opcodeOf .push ∨ op = opcodeOf .call) ∧ v = 0#9
  | .stackUnderflow, none, some op, some v => (op = opcodeOf .pop ∨ op = opcodeOf .ret) ∧ v = 255#9
  | _, _, _, _ => False

/-- `fault` is None while Running or Halted and holds a legal record while Faulted, taken at the `pc` the machine still
has (10_state.md R51, 60_exceptions.md R288). -/
def FaultLegal (s : State) : Prop :=
  match s.fault with
  | none => s.engine ≠ .faulted
  | some f => s.engine = .faulted ∧ f.pc = s.pc ∧ RecordLegal s.aluExt f

/-- The invariant of the machine. -/
structure StateInv (s : State) : Prop where
  /-- Memory is in its canonical form. -/
  memWf : Memory.wf s.mem = true
  /-- FL is one of 0, 1, 2 and 4. -/
  flags : FlagsLegal s
  /-- `pc` is 0 to 256. -/
  pc : PcLegal s
  /-- The fault record fits the engine state. -/
  fault : FaultLegal s

/-! ## The spec's tables, written apart from the meanings -/

/-- `s` after a fault with the given opcode, code, kind and value (60_exceptions.md R288): only the engine state and the
record differ from `s`. -/
def faulted (s : State) (opcode : Option Byte) (code : FaultCode) (kind : Option FaultKind) (value : PcWord) : State :=
  { s with engine := .faulted, fault := some ⟨code, kind, s.pc, opcode, some value⟩ }

/-- The numbers of the registers an instruction may write (10_state.md R37, the table). -/
def regsWritten : Instr → List Nat
  | .ldi r _ => [r.toNat]
  | .add a _ => [a.toNat]
  | .mul a _ => [a.toNat]
  | .sub a _ => [a.toNat]
  | .and a _ => [a.toNat]
  | .or a _ => [a.toNat]
  | .xor a _ => [a.toNat]
  | .push _ => [7]
  | .pop r => [7, r.toNat]
  | .call _ => [7]
  | .ret => [7]
  | .prn _ => []
  | .hlt => []
  | .cmp _ _ => []
  | .jmp _ => []
  | .jeq _ => []
  | .jne _ => []

/-- The address an instruction stores to: the slot at SP before its decrement, for PUSH and CALL (20_memory.md R74). -/
def storeAddress (i : Instr) (s : State) : Option Nat :=
  match i with
  | .push _ => some s.sp.toNat
  | .call _ => some s.sp.toNat
  | .hlt => none
  | .ret => none
  | .pop _ => none
  | .prn _ => none
  | .jmp _ => none
  | .jeq _ => none
  | .jne _ => none
  | .ldi _ _ => none
  | .add _ _ => none
  | .sub _ _ => none
  | .mul _ _ => none
  | .cmp _ _ => none
  | .and _ _ => none
  | .or _ _ => none
  | .xor _ _ => none

/-- Register `b` of a register file, 0 where `b` names none: for use where the register check has passed. -/
def regAt (x : Vector Byte 8) (b : Byte) : Byte := x.toList.getD b.toNat 0#8

/-- The multiplexer's input `SEQ` (40_cycle.md R149). -/
def seqPc (i : Instr) (s : State) : PcWord := s.pc + BitVec.ofNat 9 (encode i).length

/-- The next `pc` of an instruction that completes (40_cycle.md R146, R149). -/
def nextPc (i : Instr) (s : State) : PcWord :=
  match i with
  | .jmp r => (regAt s.x r).setWidth 9
  | .call r => (regAt (s.x.set 7 (s.x[7] - 1#8)) r).setWidth 9
  | .jeq r => if s.fl.getLsbD 0 = true then (regAt s.x r).setWidth 9 else seqPc (.jeq r) s
  | .jne r => if s.fl.getLsbD 0 = false then (regAt s.x r).setWidth 9 else seqPc (.jne r) s
  | .ret => (Memory.read s.mem (s.x[7] + 1#8).toNat).setWidth 9
  | .hlt => seqPc .hlt s
  | .push r => seqPc (.push r) s
  | .pop r => seqPc (.pop r) s
  | .prn r => seqPc (.prn r) s
  | .ldi r v => seqPc (.ldi r v) s
  | .add a b => seqPc (.add a b) s
  | .sub a b => seqPc (.sub a b) s
  | .mul a b => seqPc (.mul a b) s
  | .cmp a b => seqPc (.cmp a b) s
  | .and a b => seqPc (.and a b) s
  | .or a b => seqPc (.or a b) s
  | .xor a b => seqPc (.xor a b) s

/-- The state after the first fault of a step in the order of 60_exceptions.md R292, or `none` where no check fails. -/
def firstFault (s : State) : Option State :=
  let op := Memory.read s.mem s.pc.toNat
  if 255 < s.pc.toNat then some (faulted s none .outOfRange (some .fetch) s.pc)
  else
    match decodeOpcode s.aluExt op with
    | none => some (faulted s (some op) .invalidOpcode none (op.setWidth 9))
    | some m =>
      let i := assemble m (Memory.read s.mem (s.pc.toNat + 1)) (Memory.read s.mem (s.pc.toNat + 2))
      if 256 < s.pc.toNat + ilen op then some (faulted s (some op) .outOfRange (some .fetch) 256#9)
      else
        match i.regOperands.find? fun r => decide (8 ≤ r.toNat) with
        | some r => some (faulted s (some op) .outOfRange (some .register) (r.setWidth 9))
        | none =>
          if (m = .push ∨ m = .call) ∧ s.x[7] = 0#8 then some (faulted s (some op) .stackOverflow none 0#9)
          else if (m = .pop ∨ m = .ret) ∧ s.x[7] = 255#8 then some (faulted s (some op) .stackUnderflow none 255#9)
          else if m = .call ∧ 255 < s.pc.toNat + 2 then some (faulted s (some op) .outOfRange (some .value) 256#9)
          else none

end Sys2Proof
end

