-- ==== Sys2Proof/Certificates/Slice0/Obligations.lean ====
section
/-! DEFINITION. The statements for the provers, each from the numbered rules of spec/ named in OBLIGATIONS.json.
The opcode bytes in them are those of 30_encoding.md R107, which the spec decided for itself (92_eei_decisions.md D1;
notes/assumptions/2.md). -/

namespace Sys2Proof

open Sys2Proof.Machine

/-! ## Clauses that the rules of several instructions share -/

/-- An instruction whose opcode is `op` and whose length is `len`, placed so that an operand byte would lie above 255,
raises `OutOfRange(FETCH)` with `value = 256` before it executes (40_cycle.md R144, R147). -/
def OperandFetchFaults (op : Byte) (len : Nat) : Prop :=
  ∀ s : State, s.engine = .running → s.pc.toNat ≤ 255 → Memory.read s.mem s.pc.toNat = op →
    (decodeOpcode s.aluExt op).isSome = true → 256 < s.pc.toNat + len →
    step s = .next (faulted s (some op) .outOfRange (some .fetch) 256#9)

/-- A one-register instruction with an operand byte of 8 or more raises `OutOfRange(REGISTER)`, whatever else holds. -/
def BadRegisterFaults (mk : Byte → Instr) (op : Byte) : Prop :=
  ∀ (s : State) (reg : Byte), 8 ≤ reg.toNat →
    exec (mk reg) s = .next (faulted s (some op) .outOfRange (some .register) (reg.setWidth 9))

/-- A register-register instruction raises `OutOfRange(REGISTER)` for `regA` first and then for `regB`. -/
def BadRegistersFault (mk : Byte → Byte → Instr) (op : Byte) (s : State) : Prop :=
  ∀ a b : Byte,
    (8 ≤ a.toNat → exec (mk a b) s = .next (faulted s (some op) .outOfRange (some .register) (a.setWidth 9))) ∧
    (a.toNat < 8 → 8 ≤ b.toNat →
      exec (mk a b) s = .next (faulted s (some op) .outOfRange (some .register) (b.setWidth 9)))

/-- An arithmetic or logic instruction with valid operands writes `f` of the two source registers, both read before the
write, to `regA`, adds 3 to `pc`, and changes nothing else. -/
def RegisterResult (mk : Byte → Byte → Instr) (f : Byte → Byte → Byte) (s : State) : Prop :=
  ∀ (a b : Byte) (ha : a.toNat < 8) (hb : b.toNat < 8),
    exec (mk a b) s = .next { s with x := s.x.set a.toNat (f s.x[a.toNat] s.x[b.toNat]), pc := s.pc + 3#9 }

/-- An `ALU_EXT` instruction raises `InvalidOpcode` instead where `ALU_EXT` is off, whatever its operands. -/
def AbsentFaults (mk : Byte → Byte → Instr) (op : Byte) : Prop :=
  ∀ (s : State) (a b : Byte), s.aluExt = false →
    exec (mk a b) s = .next (faulted s (some op) .invalidOpcode none (op.setWidth 9))

end Sys2Proof

open Sys2Proof Sys2Proof.Machine

/-! ## Encoding -/

/-- Words written out from the encodings of 30_encoding.md R103 and R107, one for each row, decode to the instruction
they stand for. -/
def Obligations.SpecWordsDecode : Prop :=
  decode false [0b00000001#8] = .instr .hlt [] ∧
  decode false [0b00010001#8] = .instr .ret [] ∧
  decode false [0b01000101#8, 0x03#8] = .instr (.push 3#8) [] ∧
  decode false [0b01000110#8, 0x02#8] = .instr (.pop 2#8) [] ∧
  decode false [0b01000111#8, 0x07#8] = .instr (.prn 7#8) [] ∧
  decode false [0b01010000#8, 0x01#8] = .instr (.call 1#8) [] ∧
  decode false [0b01010100#8, 0x08#8] = .instr (.jmp 8#8) [] ∧
  decode false [0b01010101#8, 0x04#8] = .instr (.jeq 4#8) [] ∧
  decode false [0b01010110#8, 0x05#8] = .instr (.jne 5#8) [] ∧
  decode false [0b10000010#8, 0x03#8, 0x2A#8] = .instr (.ldi 3#8 42#8) [] ∧
  decode false [0b10100000#8, 0x00#8, 0x01#8] = .instr (.add 0#8 1#8) [] ∧
  decode true [0b10100001#8, 0x00#8, 0x01#8] = .instr (.sub 0#8 1#8) [] ∧
  decode false [0b10100010#8, 0x00#8, 0x01#8] = .instr (.mul 0#8 1#8) [] ∧
  decode false [0b10100111#8, 0x00#8, 0x02#8] = .instr (.cmp 0#8 2#8) [] ∧
  decode true [0b10101000#8, 0x00#8, 0x01#8] = .instr (.and 0#8 1#8) [] ∧
  decode true [0b10101010#8, 0x00#8, 0x02#8] = .instr (.or 0#8 2#8) [] ∧
  decode true [0b10101011#8, 0x00#8, 0xFF#8] = .instr (.xor 0#8 255#8) []

/-- Decoding what an instruction encodes to gives the instruction back, for every instruction present under either value
of `ALU_EXT`, every operand byte and whatever bytes follow. -/
def Obligations.DecodeOfEncode : Prop :=
  ∀ (aluExt : Bool) (i : Instr) (rest : List Byte), i.present aluExt = true →
    decode aluExt (encode i ++ rest) = .instr i rest

/-- Each word has one meaning: what decodes to an instruction is that instruction's encoding, and the instruction is
present under the `ALU_EXT` it was decoded with. -/
def Obligations.EncodeOfDecode : Prop :=
  ∀ (aluExt : Bool) (bytes : List Byte) (i : Instr) (rest : List Byte), decode aluExt bytes = .instr i rest →
    bytes = encode i ++ rest ∧ i.present aluExt = true

/-- 40_cycle.md R143 and 60_exceptions.md R282: executing an opcode byte that decodes to `Invalid` raises `InvalidOpcode`
with the byte and `pc` recorded and `pc` unmoved, at every address of an opcode, 255 included. There are 243 such bytes
without `ALU_EXT` and 239 with it: that is an inference of 30_encoding.md R111, which marks it derived. -/
def Obligations.IllegalOpcodesFault : Prop :=
  ((List.range 256).countP fun n => (decodeOpcode false (BitVec.ofNat 8 n)).isNone) = 243 ∧
  ((List.range 256).countP fun n => (decodeOpcode true (BitVec.ofNat 8 n)).isNone) = 239 ∧
  ∀ s : State, s.engine = .running → s.pc.toNat ≤ 255 →
    decodeOpcode s.aluExt (Memory.read s.mem s.pc.toNat) = none →
    step s = .next (faulted s (some (Memory.read s.mem s.pc.toNat)) .invalidOpcode none
      ((Memory.read s.mem s.pc.toNat).setWidth 9))

/-- 30_encoding.md R112: every opcode byte from 0xC0 on is illegal under either value of `ALU_EXT`; its `ilen` is 4 and is
never used, since the fault comes before any operand is looked at, at 255 too. -/
def Obligations.HighOpcodesIllegal : Prop :=
  ∀ (aluExt : Bool) (op : Byte), 0xC0 ≤ op.toNat →
    ilen op = 4 ∧ decodeOpcode aluExt op = none ∧
    (∀ rest : List Byte, decode aluExt (op :: rest) = .rejected (.invalidOpcode op)) ∧
    ∀ s : State, s.engine = .running → s.pc.toNat ≤ 255 → Memory.read s.mem s.pc.toNat = op →
      step s = .next (faulted s (some op) .invalidOpcode none (op.setWidth 9))

/-- 30_encoding.md R109: the four `ALU_EXT` rows decode to their instructions only under `ALU_EXT`; without it each is an
ordinary invalid opcode, which raises `InvalidOpcode`. -/
def Obligations.AluExtRowsGated : Prop :=
  decodeOpcode true 0xA1#8 = some .sub ∧ decodeOpcode true 0xA8#8 = some .and ∧
  decodeOpcode true 0xAA#8 = some .or ∧ decodeOpcode true 0xAB#8 = some .xor ∧
  ∀ op ∈ [0xA1#8, 0xA8#8, 0xAA#8, 0xAB#8], decodeOpcode false op = none ∧
    ∀ s : State, s.aluExt = false → s.engine = .running → s.pc.toNat ≤ 255 → Memory.read s.mem s.pc.toNat = op →
      step s = .next (faulted s (some op) .invalidOpcode none (op.setWidth 9))

/-! ## The step -/

/-- 40_cycle.md R147: while Running, when the bytes from `pc` on decode to an instruction, the step is exactly that
instruction's execution; the model's step adds nothing around it. -/
def Obligations.StepRunsDecodedInstruction : Prop :=
  ∀ (s : State) (i : Instr) (rest : List Byte), s.engine = .running →
    decode s.aluExt (codeBytes s) = .instr i rest → step s = exec i s

/-- 40_cycle.md R142: the opcode fetch reads the byte at `pc`; at a `pc` above 255 it raises `OutOfRange(FETCH)`, no
instruction has executed, and the record holds no opcode and that `pc`, 256 where `pc` is 256, which is the only value
above 255 that `pc` can reach. -/
def Obligations.OpcodeFetchFault : Prop :=
  (∀ s : State, s.engine = .running → 255 < s.pc.toNat →
    step s = .next (faulted s none .outOfRange (some .fetch) s.pc)) ∧
  (∀ s : State, s.engine = .running → s.pc = 256#9 →
    step s = .next { s with engine := .faulted, fault := some ⟨.outOfRange, some .fetch, 256#9, none, some 256#9⟩ }) ∧
  PcLegal State.reset ∧ ∀ s t : State, PcLegal s → step s = .next t → PcLegal t

/-- 40_cycle.md R144: exactly the `ilen(op) - 1` operand bytes are fetched. One at an address above 255 raises
`OutOfRange(FETCH)`; where all of them exist the instruction executes with them, and a byte it does not have never
faults. -/
def Obligations.OperandFetchGuarded : Prop :=
  ∀ (s : State) (m : Mnemonic), s.engine = .running → s.pc.toNat ≤ 255 →
    decodeOpcode s.aluExt (Memory.read s.mem s.pc.toNat) = some m →
    (256 < s.pc.toNat + ilen (Memory.read s.mem s.pc.toNat) →
      step s = .next (faulted s (some (Memory.read s.mem s.pc.toNat)) .outOfRange (some .fetch) 256#9)) ∧
    (s.pc.toNat + ilen (Memory.read s.mem s.pc.toNat) ≤ 256 →
      ∀ b1 b2 : Byte,
        (2 ≤ ilen (Memory.read s.mem s.pc.toNat) → b1 = Memory.read s.mem (s.pc.toNat + 1)) →
        (3 ≤ ilen (Memory.read s.mem s.pc.toNat) → b2 = Memory.read s.mem (s.pc.toNat + 2)) →
        step s = exec (assemble m b1 b2) s)

/-- 40_cycle.md R141: in Halted or Faulted the core has no step: however many are asked for, nothing changes. -/
def Obligations.EndedCoreHasNoStep : Prop :=
  ∀ (s : State) (n : Nat), Ended s → step s = .next s ∧ Host.Core.run core n s = .next s

/-- 40_cycle.md R151: a step either completes one instruction or ends the run with a fault, and it leaves `pc` where it
was without ending the run only where a control transfer's own target is its own address. -/
def Obligations.ForwardProgress : Prop :=
  ∀ s : State, s.engine = .running → ∃ t : State, step s = .next t ∧
    (t.engine = .faulted ∨
      ∃ (i : Instr) (rest : List Byte), decode s.aluExt (codeBytes s) = .instr i rest ∧ exec i s = .next t ∧
        (t.pc = s.pc → i = .ret ∨ ∃ r, i = .jmp r ∨ i = .call r ∨
          (i = .jeq r ∧ s.fl.getLsbD 0 = true) ∨ (i = .jne r ∧ s.fl.getLsbD 0 = false)))

/-- THE MODEL'S CHOICE (notes/assumptions/3.md, DESIGN CHOICE: the `UnwrittenRegister` that 10_state.md R33 recommends
by default is never raised; notes/assumptions/4.md, DEDUCED: a fault of the core is a next state): no step faults or is
refused at the model's level. From every state, reached or not, there is a next state. -/
def Obligations.StepAnswersNext : Prop :=
  (∀ s : State, ∃ t : State, step s = .next t) ∧ ∀ (i : Instr) (s : State), ∃ t : State, exec i s = .next t

/-! ## Data movement and I/O -/

/-- 41_data_io.md R170, LDI. -/
def Obligations.LdiRule : Prop :=
  (∀ reg imm : Byte, encode (.ldi reg imm) = [0x82#8, reg, imm]) ∧
  (∀ (s : State) (reg imm : Byte) (h : reg.toNat < 8),
    exec (.ldi reg imm) s = .next { s with x := s.x.set reg.toNat imm, pc := s.pc + 3#9 }) ∧
  (∀ imm : Byte, BadRegisterFaults (fun reg => .ldi reg imm) 0x82#8) ∧
  OperandFetchFaults 0x82#8 3

/-- 41_data_io.md R171, PRN: the byte is appended; the host's rendering of the output grows by its decimal number. -/
def Obligations.PrnRule : Prop :=
  (∀ reg : Byte, encode (.prn reg) = [0x47#8, reg]) ∧
  (∀ (s : State) (reg : Byte) (h : reg.toNat < 8),
    exec (.prn reg) s = .next { s with outq := s.outq ++ [s.x[reg.toNat]], pc := s.pc + 2#9 }) ∧
  BadRegisterFaults .prn 0x47#8 ∧
  OperandFetchFaults 0x47#8 2 ∧
  ∀ (s : State) (v : Byte), renderOutput (s.outq ++ [v]) = renderOutput s.outq ++ [Nat.repr v.toNat]

/-- 41_data_io.md R172, HLT, at every address of an opcode, 255 included, where it leaves `pc = 256`, which is never
fetched, because the core has stopped. -/
def Obligations.HltRule : Prop :=
  encode .hlt = [0x01#8] ∧
  (∀ s : State, exec .hlt s = .next { s with engine := .halted, pc := s.pc + 1#9 }) ∧
  ∀ s : State, s.engine = .running → s.pc.toNat ≤ 255 → Memory.read s.mem s.pc.toNat = 0x01#8 →
    ∃ t : State, t = { s with engine := .halted, pc := BitVec.ofNat 9 (s.pc.toNat + 1) } ∧ step s = .next t ∧
      step t = .next t

/-! ## The ALU -/

/-- 42_alu.md R191: the ALU operations, in integers reduced to 8 bits. -/
def Obligations.AluOperations : Prop :=
  ∀ a b : Byte,
    alu .add a b = .res (BitVec.ofNat 8 ((a.toNat + b.toNat) % 256)) ∧
    alu .sub a b = .res (BitVec.ofNat 8 ((a.toNat + 256 - b.toNat) % 256)) ∧
    alu .mul a b = .res (BitVec.ofNat 8 ((a.toNat * b.toNat) % 256)) ∧
    (∀ i : Nat, i < 8 →
      (a &&& b).getLsbD i = (a.getLsbD i && b.getLsbD i) ∧
      (a ||| b).getLsbD i = (a.getLsbD i || b.getLsbD i) ∧
      (a ^^^ b).getLsbD i = (a.getLsbD i ^^ b.getLsbD i)) ∧
    alu .and a b = .res (a &&& b) ∧ alu .or a b = .res (a ||| b) ∧ alu .xor a b = .res (a ^^^ b) ∧
    (a.toNat < b.toNat → alu .cmp a b = .fl 0b100#8) ∧
    (a.toNat > b.toNat → alu .cmp a b = .fl 0b010#8) ∧
    (a = b → alu .cmp a b = .fl 0b001#8)

/-- 42_alu.md R194, ADD. -/
def Obligations.AddRule : Prop :=
  (∀ a b : Byte, encode (.add a b) = [0xA0#8, a, b]) ∧
  (∀ s : State, RegisterResult .add (fun u v => BitVec.ofNat 8 ((u.toNat + v.toNat) % 256)) s ∧
    BadRegistersFault .add 0xA0#8 s) ∧
  OperandFetchFaults 0xA0#8 3

/-- 42_alu.md R195, MUL. -/
def Obligations.MulRule : Prop :=
  (∀ a b : Byte, encode (.mul a b) = [0xA2#8, a, b]) ∧
  (∀ s : State, RegisterResult .mul (fun u v => BitVec.ofNat 8 ((u.toNat * v.toNat) % 256)) s ∧
    BadRegistersFault .mul 0xA2#8 s) ∧
  OperandFetchFaults 0xA2#8 3

/-- 42_alu.md R196, CMP: FL is replaced whole by L, G or E alone; no register is written. -/
def Obligations.CmpRule : Prop :=
  (∀ a b : Byte, encode (.cmp a b) = [0xA7#8, a, b]) ∧
  (∀ (s : State) (a b : Byte) (ha : a.toNat < 8) (hb : b.toNat < 8),
    exec (.cmp a b) s = .next { s with
      fl := if s.x[a.toNat].toNat < s.x[b.toNat].toNat then 0b00000100#8
        else if s.x[a.toNat].toNat > s.x[b.toNat].toNat then 0b00000010#8
        else 0b00000001#8
      pc := s.pc + 3#9 }) ∧
  (∀ s : State, BadRegistersFault .cmp 0xA7#8 s) ∧
  OperandFetchFaults 0xA7#8 3

/-- 42_alu.md R197, SUB. -/
def Obligations.SubRule : Prop :=
  (∀ a b : Byte, encode (.sub a b) = [0xA1#8, a, b]) ∧
  (∀ s : State, s.aluExt = true →
    RegisterResult .sub (fun u v => BitVec.ofNat 8 ((u.toNat + 256 - v.toNat) % 256)) s ∧
    BadRegistersFault .sub 0xA1#8 s) ∧
  AbsentFaults .sub 0xA1#8 ∧
  OperandFetchFaults 0xA1#8 3

/-- 42_alu.md R198, AND. -/
def Obligations.AndRule : Prop :=
  (∀ a b : Byte, encode (.and a b) = [0xA8#8, a, b]) ∧
  (∀ s : State, s.aluExt = true → RegisterResult .and (fun u v => u &&& v) s ∧ BadRegistersFault .and 0xA8#8 s) ∧
  AbsentFaults .and 0xA8#8 ∧
  OperandFetchFaults 0xA8#8 3

/-- 42_alu.md R199, OR. -/
def Obligations.OrRule : Prop :=
  (∀ a b : Byte, encode (.or a b) = [0xAA#8, a, b]) ∧
  (∀ s : State, s.aluExt = true → RegisterResult .or (fun u v => u ||| v) s ∧ BadRegistersFault .or 0xAA#8 s) ∧
  AbsentFaults .or 0xAA#8 ∧
  OperandFetchFaults 0xAA#8 3

/-- 42_alu.md R200, XOR. -/
def Obligations.XorRule : Prop :=
  (∀ a b : Byte, encode (.xor a b) = [0xAB#8, a, b]) ∧
  (∀ s : State, s.aluExt = true → RegisterResult .xor (fun u v => u ^^^ v) s ∧ BadRegistersFault .xor 0xAB#8 s) ∧
  AbsentFaults .xor 0xAB#8 ∧
  OperandFetchFaults 0xAB#8 3

/-! ## The stack -/

/-- 43_stack.md R233, PUSH: the store goes to SP before the decrement, and for R7 the value stored is that SP. -/
def Obligations.PushRule : Prop :=
  (∀ reg : Byte, encode (.push reg) = [0x45#8, reg]) ∧
  (∀ (s : State) (reg : Byte) (h : reg.toNat < 8), s.x[7] ≠ 0#8 →
    exec (.push reg) s = .next { s with
      mem := Memory.write s.mem s.x[7].toNat s.x[reg.toNat]
      x := s.x.set 7 (s.x[7] - 1#8)
      pc := s.pc + 2#9 }) ∧
  BadRegisterFaults .push 0x45#8 ∧
  (∀ (s : State) (reg : Byte), reg.toNat < 8 → s.x[7] = 0#8 →
    exec (.push reg) s = .next (faulted s (some 0x45#8) .stackOverflow none 0#9)) ∧
  OperandFetchFaults 0x45#8 2

/-- 43_stack.md R234, POP: SP is incremented, then the register is written, so that for R7 the popped byte stays. -/
def Obligations.PopRule : Prop :=
  (∀ reg : Byte, encode (.pop reg) = [0x46#8, reg]) ∧
  (∀ (s : State) (reg : Byte) (h : reg.toNat < 8), s.x[7] ≠ 255#8 →
    exec (.pop reg) s = .next { s with
      x := (s.x.set 7 (s.x[7] + 1#8)).set reg.toNat (Memory.read s.mem (s.x[7].toNat + 1))
      pc := s.pc + 2#9 }) ∧
  BadRegisterFaults .pop 0x46#8 ∧
  (∀ (s : State) (reg : Byte), reg.toNat < 8 → s.x[7] = 255#8 →
    exec (.pop reg) s = .next (faulted s (some 0x46#8) .stackUnderflow none 255#9)) ∧
  OperandFetchFaults 0x46#8 2

/-- 43_stack.md R231: PUSH and CALL with a valid operand at SP 0 raise `StackOverflow` with value 0 and write nothing;
and address 0 is never a stack slot: no step from any state changes the byte there. -/
def Obligations.StackOverflowPoint : Prop :=
  (∀ (s : State) (reg : Byte), reg.toNat < 8 → s.x[7] = 0#8 →
    exec (.push reg) s = .next (faulted s (some 0x45#8) .stackOverflow none 0#9) ∧
    exec (.call reg) s = .next (faulted s (some 0x50#8) .stackOverflow none 0#9)) ∧
  ∀ s t : State, step s = .next t → Memory.read t.mem 0 = Memory.read s.mem 0

/-- 43_stack.md R232: POP with a valid operand, and RET, at SP 255 raise `StackUnderflow` with value 255 and write
nothing; at every other SP, wherever software has moved it, neither of them faults. -/
def Obligations.StackUnderflowPoint : Prop :=
  (∀ (s : State) (reg : Byte), reg.toNat < 8 → s.x[7] = 255#8 →
    exec (.pop reg) s = .next (faulted s (some 0x46#8) .stackUnderflow none 255#9) ∧
    exec .ret s = .next (faulted s (some 0x11#8) .stackUnderflow none 255#9)) ∧
  ∀ (s : State) (reg : Byte), reg.toNat < 8 → s.x[7] ≠ 255#8 →
    (∃ t : State, exec (.pop reg) s = .next t ∧ t.engine = s.engine ∧ t.fault = s.fault) ∧
    ∃ t : State, exec .ret s = .next t ∧ t.engine = s.engine ∧ t.fault = s.fault

/-- 95_test_vectors.md W4, with its restriction: PUSH then POP of another register than R7 leaves the pushed value there
and SP as before; PUSH R7 then POP R7 leaves SP as before. -/
def Obligations.PushThenPop : Prop :=
  (∀ (s : State) (r1 r2 : Byte) (h1 : r1.toNat < 8) (h2 : r2.toNat < 8), Memory.wf s.mem = true → s.x[7] ≠ 0#8 →
    r2.toNat ≠ 7 →
    ∃ t u : State, exec (.push r1) s = .next t ∧ exec (.pop r2) t = .next u ∧
      u.x[r2.toNat] = s.x[r1.toNat] ∧ u.x[7] = s.x[7]) ∧
  ∀ s : State, Memory.wf s.mem = true → s.x[7] ≠ 0#8 →
    ∃ t u : State, exec (.push 7#8) s = .next t ∧ exec (.pop 7#8) t = .next u ∧ u.x[7] = s.x[7]

/-- 20_memory.md R83: a byte PUSH stores where the next instruction lies is the opcode the very next fetch reads. -/
def Obligations.PushIntoCodeIsFetched : Prop :=
  ∀ (s : State) (reg : Byte) (h : reg.toNat < 8), Memory.wf s.mem = true → s.x[7].toNat = s.pc.toNat + 2 →
    ∃ t : State, exec (.push reg) s = .next t ∧ (codeBytes t).head? = some s.x[reg.toNat]

/-! ## Control transfer -/

/-- 44_control.md R251, CALL: the target is read after the decrement, so that CALL R7 goes to the decremented SP. -/
def Obligations.CallRule : Prop :=
  (∀ reg : Byte, encode (.call reg) = [0x50#8, reg]) ∧
  (∀ (s : State) (reg : Byte) (h : reg.toNat < 8), s.x[7] ≠ 0#8 → s.pc.toNat + 2 ≤ 255 →
    exec (.call reg) s = .next { s with
      mem := Memory.write s.mem s.x[7].toNat (BitVec.ofNat 8 (s.pc.toNat + 2))
      x := s.x.set 7 (s.x[7] - 1#8)
      pc := (s.x.set 7 (s.x[7] - 1#8))[reg.toNat].setWidth 9 }) ∧
  BadRegisterFaults .call 0x50#8 ∧
  (∀ (s : State) (reg : Byte), reg.toNat < 8 → s.x[7] = 0#8 →
    exec (.call reg) s = .next (faulted s (some 0x50#8) .stackOverflow none 0#9)) ∧
  (∀ (s : State) (reg : Byte), reg.toNat < 8 → s.x[7] ≠ 0#8 → 255 < s.pc.toNat + 2 →
    exec (.call reg) s =
      .next (faulted s (some 0x50#8) .outOfRange (some .value) (BitVec.ofNat 9 (s.pc.toNat + 2)))) ∧
  OperandFetchFaults 0x50#8 2

/-- 44_control.md R252, RET, at every address of an opcode, 255 included. -/
def Obligations.RetRule : Prop :=
  encode .ret = [0x11#8] ∧
  (∀ s : State, s.x[7] ≠ 255#8 →
    exec .ret s = .next { s with
      x := s.x.set 7 (s.x[7] + 1#8)
      pc := (Memory.read s.mem (s.x[7].toNat + 1)).setWidth 9 }) ∧
  (∀ s : State, s.x[7] = 255#8 → exec .ret s = .next (faulted s (some 0x11#8) .stackUnderflow none 255#9)) ∧
  ∀ s : State, s.engine = .running → s.pc.toNat ≤ 255 → Memory.read s.mem s.pc.toNat = 0x11#8 → step s = exec .ret s

/-- 44_control.md R253, JMP. -/
def Obligations.JmpRule : Prop :=
  (∀ reg : Byte, encode (.jmp reg) = [0x54#8, reg]) ∧
  (∀ (s : State) (reg : Byte) (h : reg.toNat < 8),
    exec (.jmp reg) s = .next { s with pc := s.x[reg.toNat].setWidth 9 }) ∧
  BadRegisterFaults .jmp 0x54#8 ∧
  OperandFetchFaults 0x54#8 2

/-- 44_control.md R254, JEQ: taken when bit 0 of FL is 1; the register operand is checked taken or not. -/
def Obligations.JeqRule : Prop :=
  (∀ reg : Byte, encode (.jeq reg) = [0x55#8, reg]) ∧
  (∀ (s : State) (reg : Byte) (h : reg.toNat < 8),
    exec (.jeq reg) s = .next { s with
      pc := if s.fl.getLsbD 0 = true then s.x[reg.toNat].setWidth 9 else s.pc + 2#9 }) ∧
  BadRegisterFaults .jeq 0x55#8 ∧
  OperandFetchFaults 0x55#8 2

/-- 44_control.md R255, JNE: taken when bit 0 of FL is 0; the register operand is checked taken or not. -/
def Obligations.JneRule : Prop :=
  (∀ reg : Byte, encode (.jne reg) = [0x56#8, reg]) ∧
  (∀ (s : State) (reg : Byte) (h : reg.toNat < 8),
    exec (.jne reg) s = .next { s with
      pc := if s.fl.getLsbD 0 = false then s.x[reg.toNat].setWidth 9 else s.pc + 2#9 }) ∧
  BadRegisterFaults .jne 0x56#8 ∧
  OperandFetchFaults 0x56#8 2

/-- 44_control.md R257: a RET straight after a CALL goes to the byte after the CALL's operand and restores SP, with every
register as before the CALL. -/
def Obligations.CallThenRet : Prop :=
  ∀ (s : State) (reg : Byte), reg.toNat < 8 → Memory.wf s.mem = true → s.x[7] ≠ 0#8 → s.pc.toNat + 2 ≤ 255 →
    ∃ t u : State, exec (.call reg) s = .next t ∧ exec .ret t = .next u ∧ u.pc.toNat = s.pc.toNat + 2 ∧ u.x = s.x

/-- 40_cycle.md R149: the next `pc` of every instruction that does not fault is the multiplexer's. -/
def Obligations.NextPcSelected : Prop :=
  ∀ (i : Instr) (s t : State), s.engine = .running → exec i s = .next t → t.engine ≠ .faulted → t.pc = nextPc i s

/-- 10_state.md R43: a sequential advance never wraps: a step that completes an instruction and takes input `SEQ` leaves
`pc` at the exact sum, at most 256, and where that is 256 and the core still runs, the next fetch raises
`OutOfRange(FETCH)`; a 1-byte instruction at 255, a 2-byte one at 254 and a 3-byte one at 253 lead there. -/
def Obligations.SequentialAdvanceNeverWraps : Prop :=
  ∀ (s t : State) (i : Instr) (rest : List Byte), s.engine = .running →
    decode s.aluExt (codeBytes s) = .instr i rest → step s = .next t → t.engine ≠ .faulted →
    nextPc i s = seqPc i s →
    t.pc.toNat = s.pc.toNat + (encode i).length ∧ t.pc.toNat ≤ 256 ∧
    (s.pc.toNat + (encode i).length = 256 → t.engine = .running →
      step t = .next (faulted t none .outOfRange (some .fetch) 256#9))

/-! ## Frames and whole-machine rules -/

/-- 10_state.md R37: an instruction writes no register but those its row of the table names. -/
def Obligations.RegistersWrittenOnlyAsListed : Prop :=
  ∀ (i : Instr) (s t : State), exec i s = .next t →
    ∀ r : Fin 8, r.val ∉ regsWritten i → t.x[r] = s.x[r]

/-- 10_state.md R46 and 42_alu.md R193: no instruction but CMP changes FL; a CMP with valid operands leaves exactly one of
the three bits set and bits 7:3 zero and writes no register. That FL stays one of 0, 1, 2 and 4, as it is at reset, is an
inference of R46's last sentence, which the spec marks derived. -/
def Obligations.OnlyCmpWritesFlags : Prop :=
  (∀ (i : Instr) (s t : State), (∀ a b : Byte, i ≠ .cmp a b) → exec i s = .next t → t.fl = s.fl) ∧
  (∀ (a b : Byte) (s : State), a.toNat < 8 → b.toNat < 8 →
    ∃ t : State, exec (.cmp a b) s = .next t ∧ (t.fl = 0b001#8 ∨ t.fl = 0b010#8 ∨ t.fl = 0b100#8) ∧ t.x = s.x) ∧
  FlagsLegal State.reset ∧
  ∀ s t : State, FlagsLegal s → step s = .next t → FlagsLegal t

/-- 20_memory.md R74: PUSH and CALL change no byte but the one at SP; no other instruction changes any byte. -/
def Obligations.MemoryFrame : Prop :=
  ∀ (i : Instr) (s t : State), exec i s = .next t →
    (∀ a : Nat, storeAddress i s ≠ some a → Memory.read t.mem a = Memory.read s.mem a) ∧
    (storeAddress i s = none → t.mem = s.mem)

/-- 10_state.md R58 and 70_reset_and_hazards.md R329: only a PRN that names a register appends to the output, one value,
at the end; nothing already there changes. -/
def Obligations.OutputFrame : Prop :=
  ∀ (i : Instr) (s t : State), exec i s = .next t →
    t.outq = s.outq ∨ ∃ (r : Byte) (h : r.toNat < 8), i = .prn r ∧ t.outq = s.outq ++ [s.x[r.toNat]]

/-- 10_state.md R50 and R51: an instruction leaves the engine state and the fault record alone unless it is HLT, which
enters Halted, or it faults; and no instruction changes the configuration. -/
def Obligations.EngineFrame : Prop :=
  ∀ (i : Instr) (s t : State), exec i s = .next t →
    t.aluExt = s.aluExt ∧
    ((t.engine = s.engine ∧ t.fault = s.fault) ∨
      (i = .hlt ∧ t.engine = .halted ∧ t.fault = s.fault) ∨
      (t.engine = .faulted ∧ t.fault.isSome = true ∧ t.pc = s.pc))

/-- 60_exceptions.md R288: a fault changes the engine state and the record and nothing else, and the record holds the
`pc` of the step's start and the opcode fetched, none where the opcode fetch failed. -/
def Obligations.FaultIsPrecise : Prop :=
  ∀ s t : State, s.engine = .running → step s = .next t → t.engine = .faulted →
    ∃ f : FaultRecord, t = { s with engine := .faulted, fault := some f } ∧ f.pc = s.pc ∧
      f.opcode = if 255 < s.pc.toNat then none else some (Memory.read s.mem s.pc.toNat)

/-- 60_exceptions.md R292: a step takes the first fault in the order of the rule, and none where no check fails. -/
def Obligations.FirstFaultTaken : Prop :=
  ∀ s : State, s.engine = .running →
    match firstFault s with
    | some t => step s = .next t
    | none => ∃ t : State, step s = .next t ∧ t.engine ≠ .faulted ∧ t.fault = s.fault

/-- 60_exceptions.md R285 and 20_memory.md R71: no step records `UnsupportedOperation` or `OutOfRange(DATA)`. -/
def Obligations.UnreachableFaultsNeverTaken : Prop :=
  ∀ (s t : State) (f : FaultRecord), s.fault = none → step s = .next t → t.fault = some f →
    f.code ≠ .unsupportedOperation ∧ f.kind ≠ some .data

/-- 10_state.md R47: no instruction but JEQ and JNE reads FL or copies it, and those two read E only: two states that
differ in FL only lead to states that differ in FL only, for every other instruction, and for a step where E is the
same. -/
def Obligations.OnlyEqualBitIsRead : Prop :=
  (∀ (s t1 t2 : State) (f1 f2 : Byte), f1.getLsbD 0 = f2.getLsbD 0 →
    step { s with fl := f1 } = .next t1 → step { s with fl := f2 } = .next t2 →
    { t1 with fl := 0#8 } = { t2 with fl := 0#8 }) ∧
  ∀ (i : Instr) (s t1 t2 : State) (f1 f2 : Byte), (∀ r : Byte, i ≠ .jeq r ∧ i ≠ .jne r) →
    exec i { s with fl := f1 } = .next t1 → exec i { s with fl := f2 } = .next t2 →
    { t1 with fl := 0#8 } = { t2 with fl := 0#8 }

/-- 10_state.md R58: no instruction reads the output port: what it holds changes nothing in the next state but itself,
and both outputs grow by the same values. -/
def Obligations.OutputIsNeverRead : Prop :=
  ∀ (s t1 t2 : State) (q1 q2 : List Byte),
    step { s with outq := q1 } = .next t1 → step { s with outq := q2 } = .next t2 →
    { t1 with outq := [] } = { t2 with outq := [] } ∧ ∃ new : List Byte, t1.outq = q1 ++ new ∧ t2.outq = q2 ++ new

/-! ## Reset, load and the invariant -/

/-- The values the spec gives for reset (10_state.md R34, R44, R52, 20_memory.md R88), in every configuration, with FL 0
and the output empty. -/
def Obligations.ResetValues : Prop :=
  ∀ c : Config,
    (State.resetWith c).x[7] = 255#8 ∧ (State.resetWith c).pc = 0#9 ∧ (State.resetWith c).fl = 0#8 ∧
    (State.resetWith c).engine = .running ∧ (State.resetWith c).fault = none ∧ (State.resetWith c).outq = [] ∧
    ∀ a : Nat, Memory.read (State.resetWith c).mem a = 0#8

/-- THE MODEL'S CHOICE (notes/assumptions/3.md; the spec gives R0 to R6 no reset value): R0 to R6 hold the configuration's
values at reset, and `State.reset` is the normative configuration (`ALU_EXT = false`) with zeros. -/
def Obligations.ResetRegisterChoice : Prop :=
  (∀ (c : Config) (r : Fin 7), (State.resetWith c).x[r.val] = c.regReset[r]) ∧
  State.reset = State.resetWith ⟨false, Vector.replicate 7 0#8⟩

/-- 20_memory.md R85 and R87: an image of at most 256 bytes lies at address 0 and up after the load, every cell past it
as it was, 0 after reset, and nothing but memory changes; a longer image has no launch. -/
def Obligations.LoadPlacesImage : Prop :=
  (∀ (c : Config) (image : List Byte), image.length ≤ 256 →
    ∃ m : Memory, launch c image = some { State.resetWith c with mem := m } ∧
      ∀ a : Nat, Memory.read m a = image.getD a 0#8) ∧
  ∀ (c : Config) (image : List Byte), 256 < image.length → launch c image = none

/-- The word the host places is the instruction the next step runs, in every configuration of reset: what
`decodeTableWord` reads from it is what `step` executes (notes/assumptions/12.md). -/
def Obligations.PlacedWordRuns : Prop :=
  ∀ (c : Config) (nbits w : Nat) (i : Instr), decodeTableWord nbits w = some i →
    step ((State.resetWith c).withFetchWord nbits w) = exec i ((State.resetWith c).withFetchWord nbits w)

/-- The invariant holds at reset and after every launch. Its FL part is R46's last sentence, which the spec marks
derived; its canonical memory is the model's form (notes/assumptions/11.md, DEDUCED). -/
def Obligations.ResetMeetsInvariant : Prop :=
  StateInv State.reset ∧ ∀ (c : Config) (image : List Byte) (s : State), launch c image = some s → StateInv s

/-- Every step from every state that meets the invariant gives a state that meets it: memory stays canonical, FL is one
of 0, 1, 2 and 4 (10_state.md R46's last sentence, which the spec marks derived), `pc` is at most 256, and the fault
record fits the engine state and a row of R280. The canonical form is the model's (notes/assumptions/11.md, DEDUCED). -/
def Obligations.StepKeepsInvariant : Prop :=
  ∀ s t : State, StateInv s → step s = .next t → StateInv t

/-- 60_exceptions.md R301: after any number of steps of any launched image, the run is Running or Halted with no fault
record, or Faulted with one; so the host can tell the two ends apart. The run also keeps the invariant, whose FL part is
10_state.md R46's last sentence, which the spec marks derived, and whose canonical memory is the model's form
(notes/assumptions/11.md, DEDUCED). -/
def Obligations.RunEndsAreDistinct : Prop :=
  ∀ (c : Config) (image : List Byte) (n : Nat) (s : State), launch c image = some s →
    ∃ t : State, Host.Core.run core n s = .next t ∧ StateInv t ∧
      (t.engine = .faulted ↔ t.fault.isSome = true)
end

