-- ==== Sys2Proof/Laws/Decode.lean ====
section
/-! SUPPORT. The laws of the opcode map and of the decoder's one lookup. -/

namespace Sys2Proof

/-- `op[7:6]` counts the operand bytes of the row's format (30_encoding.md R108). -/
theorem nopnd_opcodeOf (m : Mnemonic) : nopnd (opcodeOf m) = (opcodeMap m).format.operandCount := by
  cases m <;> decide

/-- The length a row's opcode gives is its operand bytes and the opcode (30_encoding.md R102). -/
theorem ilen_opcodeOf (m : Mnemonic) : ilen (opcodeOf m) = (opcodeMap m).format.operandCount + 1 := by
  cases m <;> decide

/-- The map is injective (30_encoding.md R108). -/
theorem opcodeOf_injective {m n : Mnemonic} (h : opcodeOf m = opcodeOf n) : m = n := by
  cases m <;> cases n <;> first | rfl | (revert h; decide)

theorem mem_allMnemonics (m : Mnemonic) : m ∈ allMnemonics := by cases m <;> decide

/-- A row's opcode decodes to it where it is present, and to nothing where it is not (30_encoding.md R110). -/
theorem decodeOpcode_opcodeOf (aluExt : Bool) (m : Mnemonic) :
    decodeOpcode aluExt (opcodeOf m) = if presentUnder aluExt m then some m else none := by
  cases aluExt <;> cases m <;> decide

/-- What the lookup finds has the opcode looked up and is present. -/
theorem decodeOpcode_some {aluExt : Bool} {op : Byte} {m : Mnemonic} (h : decodeOpcode aluExt op = some m) :
    opcodeOf m = op ∧ presentUnder aluExt m = true := by
  have := List.find?_some h
  simpa using this

/-- Where the lookup finds nothing, the byte is the opcode of no present row (30_encoding.md R111). -/
theorem decodeOpcode_none {aluExt : Bool} {op : Byte} (h : decodeOpcode aluExt op = none) (m : Mnemonic)
    (hp : presentUnder aluExt m = true) : opcodeOf m ≠ op := by
  have := List.find?_eq_none.mp h m (mem_allMnemonics m)
  intro e
  simp [e, hp] at this

theorem presentUnder_mnemonicOf (aluExt : Bool) (i : Instr) : presentUnder aluExt (mnemonicOf i) = i.present aluExt := by
  cases i <;> rfl

end Sys2Proof
end

