-- ==== Sys2Proof/Laws/Fetch.lean ====
section
/-! SUPPORT. What fetching can answer, said once (40_cycle.md R147, parts 1 to 3). -/

namespace Sys2Proof.Machine

open Sys2Proof

/-- Every row's length is 1, 2 or 3 bytes (30_encoding.md R100). -/
theorem ilen_opcodeOf_cases (m : Mnemonic) :
    ilen (opcodeOf m) = 1 ∨ ilen (opcodeOf m) = 2 ∨ ilen (opcodeOf m) = 3 := by cases m <;> decide

/-- A one-byte instruction uses no operand byte. -/
theorem assemble_of_ilen_one {m : Mnemonic} (h : ilen (opcodeOf m) = 1) (a b c d : Byte) :
    assemble m a b = assemble m c d := by
  cases m <;> first | rfl | exact absurd h (by decide)

/-- A two-byte instruction uses no second operand byte. -/
theorem assemble_of_ilen_two {m : Mnemonic} (h : ilen (opcodeOf m) = 2) (a b d : Byte) :
    assemble m a b = assemble m a d := by
  cases m <;> first | rfl | exact absurd h (by decide)

/-- The fetch fails where the opcode has no address, raises `InvalidOpcode` where it decodes to nothing, fails where an
operand byte has no address, and otherwise gives the instruction with the two bytes after the opcode. -/
theorem fetch_spec (s : State) :
    fetch s =
      if 255 < s.pc.toNat then .raised (outOfRange .fetch s.pc.toNat) none
      else
        match decodeOpcode s.aluExt (Memory.read s.mem s.pc.toNat) with
        | none => .raised (invalidOpcode (Memory.read s.mem s.pc.toNat)) (some (Memory.read s.mem s.pc.toNat))
        | some m =>
          if 256 < s.pc.toNat + ilen (Memory.read s.mem s.pc.toNat) then
            .raised (outOfRange .fetch 256) (some (Memory.read s.mem s.pc.toNat))
          else .instr (assemble m (Memory.read s.mem (s.pc.toNat + 1)) (Memory.read s.mem (s.pc.toNat + 2))) := by
  unfold fetch
  by_cases h : 255 < s.pc.toNat
  · simp [memRead, h]
  · simp only [memRead, h, if_false]
    cases hd : decodeOpcode s.aluExt (Memory.read s.mem s.pc.toNat) with
    | none => rfl
    | some m =>
      have ho := (decodeOpcode_some hd).1
      simp only []
      rw [← ho]
      rcases ilen_opcodeOf_cases m with e | e | e <;> rw [e]
      · have : ¬ 256 < s.pc.toNat + 1 := by omega
        simp only [this, if_false, Nat.sub_self, fetchOperands]
        rw [assemble_of_ilen_one e _ _ (Memory.read s.mem (s.pc.toNat + 1)) (Memory.read s.mem (s.pc.toNat + 2))]
      · by_cases h2 : 256 < s.pc.toNat + 2
        · have h3 : s.pc.toNat = 255 := by omega
          simp [fetchOperands, memRead, h3, bind, Except.bind]
        · have h3 : ¬ 255 < s.pc.toNat + 1 := by omega
          simp only [fetchOperands, memRead, h3, h2, if_false, bind, Except.bind, Nat.add_one_sub_one]
          simp
          exact assemble_of_ilen_two e _ _ _
      · by_cases h2 : 256 < s.pc.toNat + 3
        · by_cases h3 : 255 < s.pc.toNat + 1
          · have h4 : s.pc.toNat = 255 := by omega
            simp [fetchOperands, memRead, h4, bind, Except.bind]
          · have h4 : s.pc.toNat = 254 := by omega
            simp [fetchOperands, memRead, h4, bind, Except.bind]
        · have h3 : ¬ 255 < s.pc.toNat + 1 := by omega
          have h4 : ¬ 255 < s.pc.toNat + 1 + 1 := by omega
          simp [fetchOperands, memRead, h3, h4, h2, bind, Except.bind]

end Sys2Proof.Machine
end

