-- ==== Sys2Proof/Laws/Memory.lean ====
section
/-! SUPPORT. The laws of memory: a read after a write, and every operation keeps the canonical form. -/

namespace Sys2Proof.Machine

open Sys2Proof

/-- A canonical list from `lo` on reads `memDefault` below `lo`. -/
theorem read_below_wfFrom {lo a : Nat} {m : Memory} (h : Memory.wfFrom lo m = true) (ha : a < lo) :
    Memory.read m a = memDefault := by
  induction m generalizing lo with
  | nil => rfl
  | cons c m ih =>
    obtain ⟨k, v⟩ := c
    simp only [Memory.wfFrom, Bool.and_eq_true, decide_eq_true_eq] at h
    have hk : k ≠ a := by omega
    simp only [Memory.read, hk, if_false]
    exact ih h.2 (by omega)

/-- The bound of a canonical list may be lowered. -/
theorem wfFrom_mono {lo lo' : Nat} {m : Memory} (h : Memory.wfFrom lo m = true) (hl : lo' ≤ lo) :
    Memory.wfFrom lo' m = true := by
  cases m with
  | nil => rfl
  | cons c m =>
    obtain ⟨k, v⟩ := c
    simp only [Memory.wfFrom, Bool.and_eq_true, decide_eq_true_eq] at h ⊢
    exact ⟨⟨⟨by omega, h.1.1.2⟩, h.1.2⟩, h.2⟩

/-- A write to an address of the space keeps the canonical form. -/
theorem write_wfFrom {lo a : Nat} {v : Byte} {m : Memory} (h : Memory.wfFrom lo m = true) (hlo : lo ≤ a)
    (ha : a < memSize) : Memory.wfFrom lo (Memory.write m a v) = true := by
  induction m generalizing lo with
  | nil => by_cases hv : v = memDefault <;> simp [Memory.write, Memory.wfFrom, hv, hlo, ha]
  | cons c m ih =>
    obtain ⟨k, w⟩ := c
    have h0 := h
    simp only [Memory.wfFrom, Bool.and_eq_true, decide_eq_true_eq] at h
    obtain ⟨⟨⟨h1, h2⟩, h3⟩, h4⟩ := h
    by_cases hka : k < a
    · simp only [Memory.write, hka, if_true, Memory.wfFrom, Bool.and_eq_true, decide_eq_true_eq]
      exact ⟨⟨⟨h1, h2⟩, h3⟩, ih h4 (by omega)⟩
    · have hrest : Memory.wfFrom (a + 1) (if k = a then m else (k, w) :: m) = true := by
        split
        · next e => subst e; exact h4
        · simp only [Memory.wfFrom, Bool.and_eq_true, decide_eq_true_eq]
          exact ⟨⟨⟨by omega, h2⟩, h3⟩, h4⟩
      simp only [Memory.write, hka, if_false]
      split
      · exact wfFrom_mono hrest (by omega)
      · next hv => simp [Memory.wfFrom, hlo, ha, hv, hrest]

theorem write_wf {a : Nat} {v : Byte} {m : Memory} (h : Memory.wf m = true) (ha : a < memSize) :
    Memory.wf (Memory.write m a v) = true :=
  write_wfFrom h (Nat.zero_le _) ha

theorem memWrite_wf {a : Nat} {v : Byte} {m m' : Memory} (h : Memory.wf m = true) (hw : memWrite m a v = .ok m') :
    Memory.wf m' = true := by
  unfold memWrite at hw
  split at hw
  · cases hw
  · cases hw
    exact write_wf h (by simp only [memSize]; omega)

theorem placeBytes_wf {m : Memory} (bs : List Byte) (a : Nat) (h : Memory.wf m = true) :
    Memory.wf (placeBytes m a bs) = true := by
  induction bs generalizing m a with
  | nil => exact h
  | cons b bs ih =>
    unfold placeBytes
    split
    · next ha => exact ih _ (write_wf h ha)
    · exact h

theorem resetWith_mem_wf (c : Config) : Memory.wf (State.resetWith c).mem = true := rfl

theorem reset_mem_wf : Memory.wf State.reset.mem = true := rfl

/-- A read after a write, on a canonical list. -/
theorem read_write_from {lo a : Nat} {m : Memory} (h : Memory.wfFrom lo m = true) (v : Byte) (b : Nat) :
    Memory.read (Memory.write m a v) b = if b = a then v else Memory.read m b := by
  induction m generalizing lo with
  | nil =>
    by_cases hv : v = memDefault <;> by_cases hb : b = a <;>
      simp [Memory.write, Memory.read, hv, hb, Ne.symm]
  | cons c m ih =>
    obtain ⟨k, w⟩ := c
    simp only [Memory.wfFrom, Bool.and_eq_true, decide_eq_true_eq] at h
    obtain ⟨-, h4⟩ := h
    by_cases hka : k < a
    · simp only [Memory.write, hka, if_true, Memory.read, ih h4]
      by_cases hkb : k = b
      · have : b ≠ a := by omega
        simp [hkb, this]
      · simp [hkb]
    · simp only [Memory.write, hka, if_false]
      by_cases he : k = a
      · subst he
        have hbelow : Memory.read m k = memDefault := read_below_wfFrom h4 (by omega)
        by_cases hv : v = memDefault
        · by_cases hb : b = k
          · simp [hv, hb, hbelow]
          · simp [hv, hb, Memory.read, Ne.symm hb]
        · by_cases hb : b = k
          · simp [hv, hb, Memory.read]
          · simp [hv, hb, Memory.read, Ne.symm hb]
      · have hbelow : Memory.read m a = memDefault := read_below_wfFrom h4 (by omega)
        by_cases hv : v = memDefault
        · by_cases hb : b = a
          · simp [hv, hb, he, Memory.read, hbelow]
          · simp [hv, hb, he]
        · by_cases hb : b = a
          · simp [hv, hb, he, Memory.read]
          · simp [hv, hb, he, Memory.read, Ne.symm hb]

/-- A write leaves every other byte alone, on any list. -/
theorem read_write_other (m : Memory) {a b : Nat} (v : Byte) (hb : b ≠ a) :
    Memory.read (Memory.write m a v) b = Memory.read m b := by
  induction m with
  | nil => by_cases hv : v = memDefault <;> simp [Memory.write, Memory.read, hv, Ne.symm hb]
  | cons c m ih =>
    obtain ⟨k, w⟩ := c
    by_cases hka : k < a
    · simp only [Memory.write, hka, if_true, Memory.read, ih]
    · by_cases he : k = a
      · subst he
        by_cases hv : v = memDefault <;> simp [Memory.write, Memory.read, hv, Ne.symm hb]
      · by_cases hv : v = memDefault <;> simp [Memory.write, Memory.read, hv, hka, he, Ne.symm hb]

/-- The byte written is read back, and every other byte is as before (20_memory.md R73). -/
theorem read_write {m : Memory} (h : Memory.wf m = true) (a : Nat) (v : Byte) (b : Nat) :
    Memory.read (Memory.write m a v) b = if b = a then v else Memory.read m b :=
  read_write_from h v b

end Sys2Proof.Machine
end

