-- ==== Sys2Proof/Laws/State.lean ====
section
/-! SUPPORT. One lemma per field of the state per named update: what the update makes of the field. -/

namespace Sys2Proof.Machine

open Sys2Proof

/-! ## `writeReg` -/

@[simp] theorem writeReg_mem (s : State) (i : Fin 8) (v : Byte) : (writeReg s i v).mem = s.mem := rfl
@[simp] theorem writeReg_x (s : State) (i : Fin 8) (v : Byte) : (writeReg s i v).x = s.x.set i v := rfl
@[simp] theorem writeReg_fl (s : State) (i : Fin 8) (v : Byte) : (writeReg s i v).fl = s.fl := rfl
@[simp] theorem writeReg_pc (s : State) (i : Fin 8) (v : Byte) : (writeReg s i v).pc = s.pc := rfl
@[simp] theorem writeReg_engine (s : State) (i : Fin 8) (v : Byte) : (writeReg s i v).engine = s.engine := rfl
@[simp] theorem writeReg_fault (s : State) (i : Fin 8) (v : Byte) : (writeReg s i v).fault = s.fault := rfl
@[simp] theorem writeReg_outq (s : State) (i : Fin 8) (v : Byte) : (writeReg s i v).outq = s.outq := rfl
@[simp] theorem writeReg_aluExt (s : State) (i : Fin 8) (v : Byte) : (writeReg s i v).aluExt = s.aluExt := rfl

/-! ## `advance` -/

@[simp] theorem advance_mem (m : Mnemonic) (s : State) : (advance m s).mem = s.mem := rfl
@[simp] theorem advance_x (m : Mnemonic) (s : State) : (advance m s).x = s.x := rfl
@[simp] theorem advance_fl (m : Mnemonic) (s : State) : (advance m s).fl = s.fl := rfl
@[simp] theorem advance_pc (m : Mnemonic) (s : State) : (advance m s).pc = s.pc + BitVec.ofNat 9 (ilen (opcodeOf m)) := rfl
@[simp] theorem advance_engine (m : Mnemonic) (s : State) : (advance m s).engine = s.engine := rfl
@[simp] theorem advance_fault (m : Mnemonic) (s : State) : (advance m s).fault = s.fault := rfl
@[simp] theorem advance_outq (m : Mnemonic) (s : State) : (advance m s).outq = s.outq := rfl
@[simp] theorem advance_aluExt (m : Mnemonic) (s : State) : (advance m s).aluExt = s.aluExt := rfl

/-! ## `jumpTo` -/

@[simp] theorem jumpTo_mem (target : Byte) (s : State) : (jumpTo target s).mem = s.mem := rfl
@[simp] theorem jumpTo_x (target : Byte) (s : State) : (jumpTo target s).x = s.x := rfl
@[simp] theorem jumpTo_fl (target : Byte) (s : State) : (jumpTo target s).fl = s.fl := rfl
@[simp] theorem jumpTo_pc (target : Byte) (s : State) : (jumpTo target s).pc = zext9 target := rfl
@[simp] theorem jumpTo_engine (target : Byte) (s : State) : (jumpTo target s).engine = s.engine := rfl
@[simp] theorem jumpTo_fault (target : Byte) (s : State) : (jumpTo target s).fault = s.fault := rfl
@[simp] theorem jumpTo_outq (target : Byte) (s : State) : (jumpTo target s).outq = s.outq := rfl
@[simp] theorem jumpTo_aluExt (target : Byte) (s : State) : (jumpTo target s).aluExt = s.aluExt := rfl

/-! ## `emit` -/

@[simp] theorem emit_mem (v : Byte) (s : State) : (emit v s).mem = s.mem := rfl
@[simp] theorem emit_x (v : Byte) (s : State) : (emit v s).x = s.x := rfl
@[simp] theorem emit_fl (v : Byte) (s : State) : (emit v s).fl = s.fl := rfl
@[simp] theorem emit_pc (v : Byte) (s : State) : (emit v s).pc = s.pc := rfl
@[simp] theorem emit_engine (v : Byte) (s : State) : (emit v s).engine = s.engine := rfl
@[simp] theorem emit_fault (v : Byte) (s : State) : (emit v s).fault = s.fault := rfl
@[simp] theorem emit_outq (v : Byte) (s : State) : (emit v s).outq = s.outq ++ [v] := rfl
@[simp] theorem emit_aluExt (v : Byte) (s : State) : (emit v s).aluExt = s.aluExt := rfl

/-! ## `takeFault` -/

@[simp] theorem takeFault_mem (r : Raise) (opcode : Option Byte) (s : State) : (takeFault r opcode s).mem = s.mem := rfl
@[simp] theorem takeFault_x (r : Raise) (opcode : Option Byte) (s : State) : (takeFault r opcode s).x = s.x := rfl
@[simp] theorem takeFault_fl (r : Raise) (opcode : Option Byte) (s : State) : (takeFault r opcode s).fl = s.fl := rfl
@[simp] theorem takeFault_pc (r : Raise) (opcode : Option Byte) (s : State) : (takeFault r opcode s).pc = s.pc := rfl
@[simp] theorem takeFault_engine (r : Raise) (opcode : Option Byte) (s : State) : (takeFault r opcode s).engine = .faulted := rfl
@[simp] theorem takeFault_fault (r : Raise) (opcode : Option Byte) (s : State) : (takeFault r opcode s).fault = some ⟨r.code, r.kind, s.pc, opcode, r.value⟩ := rfl
@[simp] theorem takeFault_outq (r : Raise) (opcode : Option Byte) (s : State) : (takeFault r opcode s).outq = s.outq := rfl
@[simp] theorem takeFault_aluExt (r : Raise) (opcode : Option Byte) (s : State) : (takeFault r opcode s).aluExt = s.aluExt := rfl

/-! ## Registers -/

@[simp] theorem readReg_writeReg_same (s : State) (i : Fin 8) (v : Byte) : readReg (writeReg s i v) i = v := by
  simp [readReg, writeReg]

theorem readReg_writeReg_ne (s : State) {i j : Fin 8} (v : Byte) (h : i ≠ j) :
    readReg (writeReg s i v) j = readReg s j := by
  have : (i : Nat) ≠ j := fun e => h (Fin.ext e)
  simp [readReg, writeReg, this]

theorem sp_eq (s : State) : s.sp = s.x[7] := rfl

@[simp] theorem sp_advance (m : Mnemonic) (s : State) : (advance m s).sp = s.sp := rfl

@[simp] theorem sp_writeReg_spIndex (s : State) (v : Byte) : (writeReg s spIndex v).sp = v := by
  simp [State.sp]

end Sys2Proof.Machine
end

