-- ==== Sys2Proof/Laws/Ops.lean ====
section
/-! SUPPORT. One lemma per shared operation that says everything it can do, so that no proof unfolds it again. -/

namespace Sys2Proof.Machine

open Sys2Proof

/-! ## Ending an instruction -/

@[simp] theorem finish_ok (op : Byte) (s t : State) : finish op s (.ok t) = .next t := rfl

@[simp] theorem finish_error (op : Byte) (s : State) (r : Raise) :
    finish op s (.error r) = .next (takeFault r (some op) s) := rfl

/-- What an ended instruction answers: its own next state, or its fault taken from the state it started in. -/
theorem finish_cases {op : Byte} {s t : State} {result : Except Raise State} (h : finish op s result = .next t) :
    result = .ok t ∨ ∃ r, result = .error r ∧ t = takeFault r (some op) s := by
  cases result with
  | ok u => exact .inl (by simpa using h)
  | error r => exact .inr ⟨r, rfl, by simpa using h.symm⟩

/-- Every meaning ends through `finish`, under its own opcode. -/
theorem exec_eq_finish (i : Instr) (s : State) : ∃ r, exec i s = finish (opcodeOf (mnemonicOf i)) s r := by
  cases i <;>
    simp only [exec, mnemonicOf, execHlt, execRet, execPush, execPop, execPrn, execCall, execJmp, execJeq, execJne, execLdi,
      execAdd, execSub, execMul, execCmp, execAnd, execOr, execXor] <;>
    exact ⟨_, rfl⟩

/-! ## Operands -/

theorem regOperand_valid {b : Byte} (h : b.toNat < 8) : regOperand b = .ok ⟨b.toNat, h⟩ := by
  simp [regOperand, h]

theorem regOperand_invalid {b : Byte} (h : 8 ≤ b.toNat) : regOperand b = .error (outOfRange .register b.toNat) := by
  simp [regOperand, Nat.not_lt.mpr h]

theorem rrOperands_valid {a b : Byte} (ha : a.toNat < 8) (hb : b.toNat < 8) :
    rrOperands a b = .ok (⟨a.toNat, ha⟩, ⟨b.toNat, hb⟩) := by
  simp [rrOperands, regOperand_valid ha, regOperand_valid hb, bind, Except.bind]

theorem rrOperands_invalidA {a : Byte} (b : Byte) (ha : 8 ≤ a.toNat) :
    rrOperands a b = .error (outOfRange .register a.toNat) := by
  simp [rrOperands, regOperand_invalid ha, bind, Except.bind]

theorem rrOperands_invalidB {a b : Byte} (ha : a.toNat < 8) (hb : 8 ≤ b.toNat) :
    rrOperands a b = .error (outOfRange .register b.toNat) := by
  simp [rrOperands, regOperand_valid ha, regOperand_invalid hb, bind, Except.bind]

theorem returnAddress_fits {s : State} (h : s.pc.toNat + 2 ≤ 255) :
    returnAddress s = .ok (BitVec.ofNat 8 (s.pc.toNat + 2)) := by
  simp [returnAddress, Nat.not_lt.mpr h]

theorem returnAddress_tooBig {s : State} (h : 255 < s.pc.toNat + 2) :
    returnAddress s = .error (outOfRange .value (s.pc.toNat + 2)) := by
  simp [returnAddress, h]

/-! ## Stack -/

theorem stackRoom_ok {s : State} (h : s.sp ≠ 0#8) : stackRoom s = .ok () := by simp [stackRoom, h]

theorem stackRoom_full {s : State} (h : s.sp = 0#8) : stackRoom s = .error (stackOverflow s.sp) := by
  simp [stackRoom, h]

/-- A push stores at SP and decrements SP; its address always exists, so it never raises (20_memory.md R71). -/
theorem pushByte_eq (v : Byte) (s : State) :
    pushByte v s = .ok { s with mem := Memory.write s.mem s.sp.toNat v, x := s.x.set 7 (s.sp - 1#8) } := by
  have : ¬ s.sp.toNat > 255 := by have := s.sp.isLt; omega
  simp [pushByte, memWrite, this, bind, Except.bind, writeReg, spIndex]

/-- A pop reads at SP + 1 and leaves SP there; with SP at 255 it raises, and nothing else raises (20_memory.md R71). -/
theorem popByte_eq {s : State} (h : s.sp ≠ 255#8) :
    popByte s = .ok (Memory.read s.mem (s.sp + 1#8).toNat, { s with x := s.x.set 7 (s.sp + 1#8) }) := by
  have : ¬ (s.sp + 1#8).toNat > 255 := by have := (s.sp + 1#8).isLt; omega
  simp only [popByte, stackItem, h, memRead, sp_writeReg_spIndex, if_neg this, if_false, bind, Except.bind, writeReg_mem]
  rfl

theorem popByte_empty {s : State} (h : s.sp = 255#8) : popByte s = .error (stackUnderflow s.sp) := by
  simp [popByte, stackItem, h, bind, Except.bind]

/-! ## The ALU -/

/-- An ALU instruction with valid operands writes its output and advances. -/
theorem aluBody_valid (m : Mnemonic) (f : AluOp) {a b : Byte} (ha : a.toNat < 8) (hb : b.toNat < 8) (s : State) :
    aluBody m (some f) a b s =
      .ok (advance m (writeAluOut ⟨a.toNat, ha⟩ (alu f (readReg s ⟨a.toNat, ha⟩) (readReg s ⟨b.toNat, hb⟩)) s)) := by
  simp [aluBody, rrOperands_valid ha hb, aluRequest, bind, Except.bind]

/-- Every result of an ALU instruction: its effect with valid operands, else the register fault of the first bad one. -/
theorem aluBody_cases (m : Mnemonic) (f : AluOp) (a b : Byte) (s : State) :
    (∃ ra rb, aluBody m (some f) a b s = .ok (advance m (writeAluOut ra (alu f (readReg s ra) (readReg s rb)) s))) ∨
    ∃ v : Byte, 8 ≤ v.toNat ∧ aluBody m (some f) a b s = .error (outOfRange .register v.toNat) := by
  by_cases ha : a.toNat < 8
  · by_cases hb : b.toNat < 8
    · exact .inl ⟨_, _, aluBody_valid m f ha hb s⟩
    · have hb := Nat.not_lt.mp hb
      exact .inr ⟨b, hb, by simp [aluBody, rrOperands_invalidB ha hb, bind, Except.bind]⟩
  · have ha := Nat.not_lt.mp ha
    exact .inr ⟨a, ha, by simp [aluBody, rrOperands_invalidA b ha, bind, Except.bind]⟩

theorem aluExtBody_on {s : State} (h : s.aluExt = true) (m : Mnemonic) (f : Option AluOp) (a b : Byte) :
    aluExtBody m f a b s = aluBody m f a b s := if_pos h

theorem aluExtBody_off {s : State} (h : s.aluExt = false) (m : Mnemonic) (f : Option AluOp) (a b : Byte) :
    aluExtBody m f a b s = .error (invalidOpcode (opcodeOf m)) := if_neg (by simp [h])

/-- A request outside the ALU's set raises `UnsupportedOperation` (42_alu.md R192). -/
theorem aluRequest_unsupported (a b : Byte) : aluRequest none a b = .error unsupportedOperation := rfl

/-! ## Branches -/

theorem branchBody_valid (m : Mnemonic) (taken : Bool) {reg : Byte} (h : reg.toNat < 8) (s : State) :
    branchBody m taken reg s = .ok (if taken then jumpTo (readReg s ⟨reg.toNat, h⟩) s else advance m s) := by
  simp only [branchBody, regOperand_valid h, bind, Except.bind]

theorem branchBody_invalid (m : Mnemonic) (taken : Bool) {reg : Byte} (h : 8 ≤ reg.toNat) (s : State) :
    branchBody m taken reg s = .error (outOfRange .register reg.toNat) := by
  simp only [branchBody, regOperand_invalid h, bind, Except.bind]

/-! ## Memory access -/

theorem memRead_ok {kind : FaultKind} {m : Memory} {a : Nat} (h : a ≤ 255) :
    memRead kind m a = .ok (Memory.read m a) := by simp [memRead, Nat.not_lt.mpr h]

theorem memRead_outside {kind : FaultKind} {m : Memory} {a : Nat} (h : 255 < a) :
    memRead kind m a = .error (outOfRange kind a) := by simp [memRead, h]

/-! ## The step -/

theorem step_running {s : State} (h : s.engine = .running) :
    step s = match fetch s with
      | .instr i => exec i s
      | .raised r opcode => .next (takeFault r opcode s) := by
  cases hf : fetch s <;> simp [step, h, hf]

theorem step_ended {s : State} (h : s.engine ≠ .running) : step s = .next s := by
  unfold step
  split <;> simp_all

end Sys2Proof.Machine
end

