-- ==== Sys2Proof/Laws/PerInstr.lean ====
section
/-! SUPPORT. Facts proved instruction by instruction. The family `OperandLength`: an instruction's encoding has the
length its opcode byte gives, and `op[7:6]` counts its operand bytes (30_encoding.md R102, R108). -/

namespace Sys2Proof.Laws.OperandLength

open Sys2Proof

/-- The bytes of the instruction are as many as its opcode's `ilen`, its operand bytes as many as `op[7:6]` and as its
row's format has. -/
def Statement (i : Instr) : Prop :=
  (encode i).length = ilen (opcodeOf (mnemonicOf i)) ∧
  (operandBytes i).length = nopnd (opcodeOf (mnemonicOf i)) ∧
  (operandBytes i).length = (opcodeMap (mnemonicOf i)).format.operandCount

/-- The lengths follow from the operand count, by the laws of the opcode map. -/
theorem of_operandCount {i : Instr}
    (h : (operandBytes i).length = (opcodeMap (mnemonicOf i)).format.operandCount) : Statement i :=
  ⟨by rw [ilen_opcodeOf, ← h]; rfl, by rw [nopnd_opcodeOf, h], h⟩

theorem hlt : Statement .hlt := of_operandCount rfl
theorem ret : Statement .ret := of_operandCount rfl
theorem push (reg : Byte) : Statement (.push reg) := of_operandCount rfl
theorem pop (reg : Byte) : Statement (.pop reg) := of_operandCount rfl
theorem prn (reg : Byte) : Statement (.prn reg) := of_operandCount rfl
theorem call (reg : Byte) : Statement (.call reg) := of_operandCount rfl
theorem jmp (reg : Byte) : Statement (.jmp reg) := of_operandCount rfl
theorem jeq (reg : Byte) : Statement (.jeq reg) := of_operandCount rfl
theorem jne (reg : Byte) : Statement (.jne reg) := of_operandCount rfl
theorem ldi (reg imm : Byte) : Statement (.ldi reg imm) := of_operandCount rfl
theorem add (regA regB : Byte) : Statement (.add regA regB) := of_operandCount rfl
theorem sub (regA regB : Byte) : Statement (.sub regA regB) := of_operandCount rfl
theorem mul (regA regB : Byte) : Statement (.mul regA regB) := of_operandCount rfl
theorem cmp (regA regB : Byte) : Statement (.cmp regA regB) := of_operandCount rfl
theorem and (regA regB : Byte) : Statement (.and regA regB) := of_operandCount rfl
theorem or (regA regB : Byte) : Statement (.or regA regB) := of_operandCount rfl
theorem xor (regA regB : Byte) : Statement (.xor regA regB) := of_operandCount rfl

end Sys2Proof.Laws.OperandLength
end

