-- ==== Sys2Proof/Tests/Slice0.lean ====
section
/-! SUPPORT. The model's own tests. Every expected value comes from spec/: the encodings of 30_encoding.md R107, the
vectors V<n> of 95_test_vectors.md, or the rule named beside it. Then, for each statement with hypotheses, a state and
operands that meet them. -/

namespace Sys2Proof.Tests

open Sys2Proof Sys2Proof.Machine

/-! ## The form of a test -/

/-- The reset state with bytes at `pc` and `pc` there (the conventions of 95_test_vectors.md). -/
def atPc (pc : PcWord) (bytes : List Byte) : State :=
  { State.reset with mem := placeBytes [] pc.toNat bytes, pc := pc }

/-- A state with one register set. -/
def withReg (s : State) (r : Fin 8) (v : Byte) : State := { s with x := s.x.set r v }

/-- A state with one more memory cell set. -/
def withMem (s : State) (a : Nat) (v : Byte) : State := { s with mem := Memory.write s.mem a v }

/-- The outcome is a next state that passes a check. -/
def nextIs (o : Host.Outcome State Fault Refusal) (check : State → Bool) : Bool :=
  match o with
  | .next t => check t
  | .fault _ => false
  | .refused _ => false

/-- The step takes the fault with this record, and `pc` stays. -/
def faultsWith (s : State) (code : FaultCode) (kind : Option FaultKind) (pc : PcWord) (opcode : Option Byte)
    (value : PcWord) : Bool :=
  nextIs (step s) fun t => decide (t.engine = .faulted ∧ t.fault = some ⟨code, kind, pc, opcode, some value⟩ ∧
    t.pc = s.pc ∧ t.x = s.x ∧ t.mem = s.mem ∧ t.outq = s.outq ∧ t.fl = s.fl)

/-! ## Well-formedness refuses what it checks -/

theorem test_wf_accepts : (Instr.add 7#8 0#8).wellFormed false = true := by decide
theorem test_wf_refuses_register : (Instr.push 8#8).wellFormed true = false := by decide
theorem test_wf_refuses_second_register : (Instr.add 0#8 200#8).wellFormed true = false := by decide
theorem test_wf_refuses_absent : (Instr.xor 0#8 1#8).wellFormed false = false := by decide

/-! ## Decoding, one word written out for each constructor (30_encoding.md R103, R107) -/

theorem test_decode_hlt : decode false [0b00000001#8, 9#8] = .instr .hlt [9#8] := by decide
theorem test_decode_ret : decode false [0b00010001#8] = .instr .ret [] := by decide
theorem test_decode_push : decode false [0b01000101#8, 3#8] = .instr (.push 3#8) [] := by decide
theorem test_decode_pop : decode false [0b01000110#8, 2#8] = .instr (.pop 2#8) [] := by decide
theorem test_decode_prn : decode false [0b01000111#8, 0#8] = .instr (.prn 0#8) [] := by decide
theorem test_decode_call : decode false [0b01010000#8, 1#8] = .instr (.call 1#8) [] := by decide
theorem test_decode_jmp : decode false [0b01010100#8, 3#8] = .instr (.jmp 3#8) [] := by decide
theorem test_decode_jeq : decode false [0b01010101#8, 4#8] = .instr (.jeq 4#8) [] := by decide
theorem test_decode_jne : decode false [0b01010110#8, 9#8] = .instr (.jne 9#8) [] := by decide
theorem test_decode_ldi : decode false [0b10000010#8, 0#8, 8#8] = .instr (.ldi 0#8 8#8) [] := by decide
theorem test_decode_add : decode false [0b10100000#8, 0#8, 1#8] = .instr (.add 0#8 1#8) [] := by decide
theorem test_decode_sub : decode true [0b10100001#8, 0#8, 1#8] = .instr (.sub 0#8 1#8) [] := by decide
theorem test_decode_mul : decode false [0b10100010#8, 0#8, 1#8] = .instr (.mul 0#8 1#8) [] := by decide
theorem test_decode_cmp : decode false [0b10100111#8, 0#8, 2#8] = .instr (.cmp 0#8 2#8) [] := by decide
theorem test_decode_and : decode true [0b10101000#8, 0#8, 1#8] = .instr (.and 0#8 1#8) [] := by decide
theorem test_decode_or : decode true [0b10101010#8, 0#8, 2#8] = .instr (.or 0#8 2#8) [] := by decide
theorem test_decode_xor : decode true [0b10101011#8, 0#8, 1#8] = .instr (.xor 0#8 1#8) [] := by decide

theorem test_decode_absent_sub : decode false [0xA1#8, 0#8, 1#8] = .rejected (.invalidOpcode 0xA1#8) := by decide
theorem test_decode_high : decode true [0xC5#8] = .rejected (.invalidOpcode 0xC5#8) := by decide
theorem test_decode_short : decode false [0x82#8, 0#8] = .rejected (.missingOperand 0x82#8 2) := by decide

/-! ## The decoder and the cycle (95_test_vectors.md 2.1) -/

/-- V5. -/
theorem test_invalid_at_255 : faultsWith (atPc 255#9 [0xC0#8]) .invalidOpcode none 255#9 (some 0xC0#8) 0xC0#9 = true := by
  decide
/-- V11. -/
theorem test_fetch_past_end : faultsWith (atPc 256#9 []) .outOfRange (some .fetch) 256#9 none 256#9 = true := by decide
/-- V12. -/
theorem test_operand_past_end :
    faultsWith (atPc 254#9 [0x82#8, 0#8]) .outOfRange (some .fetch) 254#9 (some 0x82#8) 256#9 = true := by decide
/-- V21. -/
theorem test_halted_core_rests : step { State.reset with engine := .halted } = .next { State.reset with engine := .halted } :=
  rfl

/-! ## LDI, PRN, HLT (95_test_vectors.md 2.2) -/

/-- V31. -/
theorem test_ldi : nextIs (step (atPc 0#9 [0x82#8, 3#8, 0xFF#8])) (fun t => t.x[3] == 255#8 && t.pc == 3#9) = true := by
  decide
/-- V33. -/
theorem test_ldi_bad_register :
    faultsWith (atPc 0#9 [0x82#8, 8#8, 5#8]) .outOfRange (some .register) 0#9 (some 0x82#8) 8#9 = true := by decide
/-- V37. -/
theorem test_prn_sp : nextIs (step (atPc 0#9 [0x47#8, 7#8])) (fun t => t.outq == [255#8] && t.pc == 2#9) = true := by decide
/-- V15. -/
theorem test_prn_at_255 : faultsWith (atPc 255#9 [0x47#8]) .outOfRange (some .fetch) 255#9 (some 0x47#8) 256#9 = true := by
  decide
/-- V14. -/
theorem test_hlt_at_255 :
    nextIs (step (atPc 255#9 [1#8])) (fun t => decide (t.engine = .halted ∧ t.pc = 256#9 ∧ t.fault = none)) = true := by
  decide

/-! ## The ALU (95_test_vectors.md 2.3) -/

/-- A state with `op 00 01` at 0, R0 and R1 given and `ALU_EXT` on. -/
def aluState (op a b : Byte) : State := { withReg (withReg (atPc 0#9 [op, 0#8, 1#8]) 0 a) 1 b with aluExt := true }

/-- V51. -/
theorem test_add_wraps : nextIs (step (aluState 0xA0#8 255#8 2#8)) (fun t => t.x[0] == 1#8 && t.fl == 0#8) = true := by decide
/-- V57: R7 as destination, no stack check. -/
theorem test_add_to_sp : nextIs (step (withReg (atPc 0#9 [0xA0#8, 7#8, 1#8]) 1 1#8)) (fun t => t.x[7] == 0#8) = true := by decide
/-- V65. -/
theorem test_mul_wraps : nextIs (step (aluState 0xA2#8 3#8 100#8)) (fun t => t.x[0] == 44#8 && t.x[1] == 100#8) = true := by decide
/-- V66: a source that is also the destination. -/
theorem test_mul_square : nextIs (step (withReg (atPc 0#9 [0xA2#8, 0#8, 0#8]) 0 13#8)) (fun t => t.x[0] == 169#8) = true := by decide
/-- V71: the comparison is unsigned. -/
theorem test_cmp_unsigned : nextIs (step (aluState 0xA7#8 128#8 127#8)) (fun t => t.fl == 2#8 && t.x[0] == 128#8) = true := by decide
/-- V73: the old bit is cleared. -/
theorem test_cmp_replaces :
    nextIs (step { aluState 0xA7#8 3#8 9#8 with fl := 1#8 }) (fun t => t.fl == 4#8 && t.pc == 3#9) = true := by decide
/-- V80. -/
theorem test_sub_wraps : nextIs (step (aluState 0xA1#8 5#8 7#8)) (fun t => t.x[0] == 254#8 && t.pc == 3#9) = true := by decide
/-- V9. -/
theorem test_sub_absent :
    faultsWith { aluState 0xA1#8 5#8 7#8 with aluExt := false } .invalidOpcode none 0#9 (some 0xA1#8) 0xA1#9 = true := by decide
/-- V89. -/
theorem test_and : nextIs (step (aluState 0xA8#8 0xC8#8 0x64#8)) (fun t => t.x[0] == 0x40#8) = true := by decide
/-- V93. -/
theorem test_or : nextIs (step (aluState 0xAA#8 0xC8#8 0x64#8)) (fun t => t.x[0] == 0xEC#8) = true := by decide
/-- V95. -/
theorem test_xor : nextIs (step (aluState 0xAB#8 0xF0#8 0x3C#8)) (fun t => t.x[0] == 0xCC#8) = true := by decide
/-- 42_alu.md R192: a request outside the ALU's set. -/
theorem test_alu_unsupported :
    (finish 0xA0#8 State.reset (aluBody .add none 0#8 1#8 State.reset)) =
      .next { State.reset with engine := .faulted, fault := some ⟨.unsupportedOperation, none, 0#9, some 0xA0#8, none⟩ } :=
  rfl

/-! ## The stack (95_test_vectors.md 2.4) -/

/-- V111: PUSH R7 stores the SP of before the decrement. -/
theorem test_push_sp :
    nextIs (step (atPc 0#9 [0x45#8, 7#8])) (fun t => Memory.read t.mem 255 == 255#8 && t.x[7] == 254#8 && t.pc == 2#9) = true := by
  decide
/-- V18: the register check comes before the stack check. -/
theorem test_push_priority :
    faultsWith (withReg (atPc 0#9 [0x45#8, 9#8]) 7 0#8) .outOfRange (some .register) 0#9 (some 0x45#8) 9#9 = true := by decide
/-- V117: POP R7 ends with the popped byte. -/
theorem test_pop_sp :
    nextIs (step (withMem (withReg (atPc 0#9 [0x46#8, 7#8]) 7 250#8) 251 100#8)) (fun t => t.x[7] == 100#8) = true := by decide
/-- V116. -/
theorem test_pop_empty : faultsWith (atPc 0#9 [0x46#8, 2#8]) .stackUnderflow none 0#9 (some 0x46#8) 255#9 = true := by decide

/-! ## Control transfer (95_test_vectors.md 2.5) -/

/-- V133: the target is read after the decrement. -/
theorem test_call_sp :
    nextIs (step (withReg (atPc 10#9 [0x50#8, 7#8]) 7 200#8))
      (fun t => Memory.read t.mem 200 == 12#8 && t.x[7] == 199#8 && t.pc == 199#9) = true := by decide
/-- V132. -/
theorem test_call_at_254 :
    faultsWith (withReg (atPc 254#9 [0x50#8, 1#8]) 1 15#8) .outOfRange (some .value) 254#9 (some 0x50#8) 256#9 = true := by
  decide
/-- V137. -/
theorem test_ret :
    nextIs (step (withMem (withReg (atPc 15#9 [0x11#8]) 7 100#8) 101 0xFF#8)) (fun t => t.x[7] == 101#8 && t.pc == 255#9) = true := by
  decide
/-- V136. -/
theorem test_ret_empty : faultsWith (atPc 15#9 [0x11#8]) .stackUnderflow none 15#9 (some 0x11#8) 255#9 = true := by decide
/-- V139. -/
theorem test_jmp : nextIs (step (withReg (atPc 25#9 [0x54#8, 3#8]) 3 255#8)) (fun t => t.pc == 255#9) = true := by decide
/-- V142. -/
theorem test_jeq_taken :
    nextIs (step { withReg (atPc 20#9 [0x55#8, 4#8]) 4 27#8 with fl := 1#8 }) (fun t => t.pc == 27#9) = true := by decide
/-- V146: the register is checked even when the branch is not taken. -/
theorem test_jeq_bad_register :
    faultsWith (atPc 20#9 [0x55#8, 9#8]) .outOfRange (some .register) 20#9 (some 0x55#8) 9#9 = true := by decide
/-- V149. -/
theorem test_jne_not_taken :
    nextIs (step { withReg (atPc 20#9 [0x56#8, 3#8]) 3 15#8 with fl := 1#8 }) (fun t => t.pc == 22#9) = true := by decide
/-- V151. -/
theorem test_jne_taken :
    nextIs (step { withReg (atPc 20#9 [0x56#8, 3#8]) 3 15#8 with fl := 4#8 }) (fun t => t.pc == 15#9) = true := by decide

/-! ## The host's side -/

/-- W8, the loader's text. -/
theorem test_loader_text :
    parseProgram ["# LDI R0 8".toList, "10000010 LDI".toList, "00000000".toList, "00001000".toList] =
      some [0x82#8, 0#8, 8#8] := by decide
/-- 93_implementation_defined.md I10. -/
theorem test_loader_malformed : parseProgram ["20000010".toList] = none := by decide
/-- 10_state.md R60: no inspection while Running, and the code of the fault afterwards (60_exceptions.md R280). -/
theorem test_inspect_running : inspect State.reset = none := by decide
theorem test_status_number :
    nextIs (step (atPc 0#9 [0x46#8, 2#8])) (fun t => statusNumber t == 4#8 && (inspect t).isSome) = true := by decide
/-- 10_state.md R58. -/
theorem test_render : renderOutput [72#8, 0#8] = ["72", "0"] := by decide
/-- The placed word of an `ALU_EXT` row runs (log 12), on R0 = 0 and R1 = 0. -/
theorem test_placed_sub : nextIs (step (State.reset.withFetchWord 24 0x0100A1)) (fun t => decide (t.engine = .running ∧ t.pc = 3#9)) = true := by
  decide

/-! ## Witnesses: states and operands that meet the hypotheses of each statement

The address 257 - `len` is the lowest at which an instruction of `len` bytes does not fit. -/

/-- The hypotheses of `OperandFetchFaults`. -/
def OperandFetchHyps (op : Byte) (len : Nat) (s : State) : Prop :=
  s.engine = .running ∧ s.pc.toNat ≤ 255 ∧ Memory.read s.mem s.pc.toNat = op ∧ (decodeOpcode s.aluExt op).isSome = true ∧
    256 < s.pc.toNat + len

theorem witness_DecodeOfEncode : (Instr.sub 7#8 255#8).present true = true ∧ (Instr.add 7#8 8#8).present false = true := by decide
theorem witness_EncodeOfDecode : decode true [0xA1#8, 0#8, 1#8, 9#8] = .instr (.sub 0#8 1#8) [9#8] := by decide
theorem witness_IllegalOpcodesFault : (atPc 255#9 [0xFF#8]).engine = .running ∧ (atPc 255#9 [0xFF#8]).pc.toNat ≤ 255 ∧
    decodeOpcode false (Memory.read (atPc 255#9 [0xFF#8]).mem 255) = none := by decide
theorem witness_HighOpcodesIllegal : 0xC0 ≤ (0xC0#8).toNat ∧ (atPc 255#9 [0xC0#8]).engine = .running ∧
    (atPc 255#9 [0xC0#8]).pc.toNat ≤ 255 ∧ Memory.read (atPc 255#9 [0xC0#8]).mem 255 = 0xC0#8 := by decide
theorem witness_AluExtRowsGated : (atPc 255#9 [0xA1#8]).aluExt = false ∧ (atPc 255#9 [0xA1#8]).engine = .running ∧
    (atPc 255#9 [0xA1#8]).pc.toNat ≤ 255 ∧ Memory.read (atPc 255#9 [0xA1#8]).mem 255 = 0xA1#8 := by decide
theorem witness_StepRunsDecodedInstruction : (atPc 253#9 [0x82#8, 7#8, 1#8]).engine = .running ∧
    decode false (codeBytes (atPc 253#9 [0x82#8, 7#8, 1#8])) = .instr (.ldi 7#8 1#8) [] := by decide
theorem witness_OpcodeFetchFault : (atPc 256#9 []).engine = .running ∧ 255 < (atPc 256#9 []).pc.toNat ∧
    (atPc 256#9 []).pc = 256#9 := by decide
theorem witness_OpcodeFetchFault_step : PcLegal (atPc 256#9 []) ∧ ∃ t, step (atPc 256#9 []) = .next t :=
  ⟨Nat.le_refl _, _, rfl⟩
theorem witness_OperandFetchGuarded_past : (atPc 254#9 [0x82#8]).engine = .running ∧ (atPc 254#9 [0x82#8]).pc.toNat ≤ 255 ∧
    decodeOpcode false (Memory.read (atPc 254#9 [0x82#8]).mem 254) = some .ldi ∧ 256 < 254 + ilen 0x82#8 := by decide
theorem witness_OperandFetchGuarded_fits : (atPc 254#9 [0x47#8]).engine = .running ∧ (atPc 254#9 [0x47#8]).pc.toNat ≤ 255 ∧
    decodeOpcode false (Memory.read (atPc 254#9 [0x47#8]).mem 254) = some .prn ∧ 254 + ilen 0x47#8 ≤ 256 := by decide
theorem witness_EndedCoreHasNoStep :
    Ended { State.reset with engine := .halted } ∧ Ended { State.reset with engine := .faulted } :=
  ⟨.inl rfl, .inr rfl⟩
theorem witness_ForwardProgress : State.reset.engine = .running := rfl
theorem witness_LdiRule : (7#8).toNat < 8 ∧ 8 ≤ (8#8).toNat ∧ OperandFetchHyps 0x82#8 3 (atPc 254#9 [0x82#8]) := by
  unfold OperandFetchHyps; decide
theorem witness_PrnRule : (7#8).toNat < 8 ∧ 8 ≤ (8#8).toNat ∧ OperandFetchHyps 0x47#8 2 (atPc 255#9 [0x47#8]) := by
  unfold OperandFetchHyps; decide
theorem witness_HltRule : (atPc 255#9 [1#8]).engine = .running ∧ (atPc 255#9 [1#8]).pc.toNat ≤ 255 ∧
    Memory.read (atPc 255#9 [1#8]).mem 255 = 1#8 := by decide
theorem witness_AluOperations : (0#8).toNat < (255#8).toNat ∧ (128#8).toNat > (127#8).toNat ∧ (7#8) = 7#8 ∧ 7 < 8 := by decide
theorem witness_AddRule : (7#8).toNat < 8 ∧ 8 ≤ (8#8).toNat ∧ OperandFetchHyps 0xA0#8 3 (atPc 254#9 [0xA0#8]) := by
  unfold OperandFetchHyps; decide
theorem witness_MulRule : (7#8).toNat < 8 ∧ 8 ≤ (8#8).toNat ∧ OperandFetchHyps 0xA2#8 3 (atPc 254#9 [0xA2#8]) := by
  unfold OperandFetchHyps; decide
theorem witness_CmpRule : (7#8).toNat < 8 ∧ 8 ≤ (8#8).toNat ∧ OperandFetchHyps 0xA7#8 3 (atPc 254#9 [0xA7#8]) := by
  unfold OperandFetchHyps; decide
theorem witness_SubRule : (7#8).toNat < 8 ∧ 8 ≤ (8#8).toNat ∧ (aluState 0xA1#8 0#8 0#8).aluExt = true ∧
    State.reset.aluExt = false ∧ OperandFetchHyps 0xA1#8 3 { atPc 254#9 [0xA1#8] with aluExt := true } := by
  unfold OperandFetchHyps; decide
theorem witness_AndRule : (7#8).toNat < 8 ∧ 8 ≤ (8#8).toNat ∧ (aluState 0xA8#8 0#8 0#8).aluExt = true ∧
    State.reset.aluExt = false ∧ OperandFetchHyps 0xA8#8 3 { atPc 254#9 [0xA8#8] with aluExt := true } := by
  unfold OperandFetchHyps; decide
theorem witness_OrRule : (7#8).toNat < 8 ∧ 8 ≤ (8#8).toNat ∧ (aluState 0xAA#8 0#8 0#8).aluExt = true ∧
    State.reset.aluExt = false ∧ OperandFetchHyps 0xAA#8 3 { atPc 254#9 [0xAA#8] with aluExt := true } := by
  unfold OperandFetchHyps; decide
theorem witness_XorRule : (7#8).toNat < 8 ∧ 8 ≤ (8#8).toNat ∧ (aluState 0xAB#8 0#8 0#8).aluExt = true ∧
    State.reset.aluExt = false ∧ OperandFetchHyps 0xAB#8 3 { atPc 254#9 [0xAB#8] with aluExt := true } := by
  unfold OperandFetchHyps; decide
theorem witness_PushRule : (7#8).toNat < 8 ∧ 8 ≤ (8#8).toNat ∧ (withReg State.reset 7 1#8).x[7] ≠ 0#8 ∧
    (withReg State.reset 7 0#8).x[7] = 0#8 ∧ OperandFetchHyps 0x45#8 2 (atPc 255#9 [0x45#8]) := by
  unfold OperandFetchHyps; decide
theorem witness_PopRule : (7#8).toNat < 8 ∧ 8 ≤ (8#8).toNat ∧ (withReg State.reset 7 254#8).x[7] ≠ 255#8 ∧
    State.reset.x[7] = 255#8 ∧ OperandFetchHyps 0x46#8 2 (atPc 255#9 [0x46#8]) := by
  unfold OperandFetchHyps; decide
theorem witness_StackOverflowPoint : (7#8).toNat < 8 ∧ (withReg State.reset 7 0#8).x[7] = 0#8 := by decide
theorem witness_StackOverflowPoint_step : ∃ t, step (withReg (atPc 0#9 [0x45#8, 0#8]) 7 1#8) = .next t := ⟨_, rfl⟩
theorem witness_StackUnderflowPoint : (7#8).toNat < 8 ∧ State.reset.x[7] = 255#8 ∧ (withReg State.reset 7 254#8).x[7] ≠ 255#8 := by
  decide
theorem witness_PushThenPop : (0#8).toNat < 8 ∧ (6#8).toNat < 8 ∧ Memory.wf (withReg State.reset 7 1#8).mem = true ∧
    (withReg State.reset 7 1#8).x[7] ≠ 0#8 ∧ (6#8).toNat ≠ 7 := by decide
theorem witness_PushIntoCodeIsFetched : (0#8).toNat < 8 ∧ Memory.wf (withReg (atPc 6#9 [0x45#8]) 7 8#8).mem = true ∧
    (withReg (atPc 6#9 [0x45#8]) 7 8#8).x[7].toNat = (withReg (atPc 6#9 [0x45#8]) 7 8#8).pc.toNat + 2 := by decide
theorem witness_CallRule : (7#8).toNat < 8 ∧ 8 ≤ (8#8).toNat ∧ State.reset.x[7] ≠ 0#8 ∧ (atPc 253#9 []).pc.toNat + 2 ≤ 255 ∧
    (withReg State.reset 7 0#8).x[7] = 0#8 ∧ 255 < (atPc 254#9 []).pc.toNat + 2 ∧
    OperandFetchHyps 0x50#8 2 (atPc 255#9 [0x50#8]) := by
  unfold OperandFetchHyps; decide
theorem witness_RetRule : (withReg State.reset 7 254#8).x[7] ≠ 255#8 ∧ State.reset.x[7] = 255#8 ∧
    (atPc 255#9 [0x11#8]).engine = .running ∧ (atPc 255#9 [0x11#8]).pc.toNat ≤ 255 ∧
    Memory.read (atPc 255#9 [0x11#8]).mem 255 = 0x11#8 := by decide
theorem witness_JmpRule : (7#8).toNat < 8 ∧ 8 ≤ (8#8).toNat ∧ OperandFetchHyps 0x54#8 2 (atPc 255#9 [0x54#8]) := by
  unfold OperandFetchHyps; decide
theorem witness_JeqRule : (7#8).toNat < 8 ∧ 8 ≤ (8#8).toNat ∧ OperandFetchHyps 0x55#8 2 (atPc 255#9 [0x55#8]) := by
  unfold OperandFetchHyps; decide
theorem witness_JneRule : (7#8).toNat < 8 ∧ 8 ≤ (8#8).toNat ∧ OperandFetchHyps 0x56#8 2 (atPc 255#9 [0x56#8]) := by
  unfold OperandFetchHyps; decide
theorem witness_CallThenRet : (7#8).toNat < 8 ∧ Memory.wf (atPc 253#9 [0x50#8]).mem = true ∧
    (atPc 253#9 [0x50#8]).x[7] ≠ 0#8 ∧ (atPc 253#9 [0x50#8]).pc.toNat + 2 ≤ 255 := by decide
theorem witness_NextPcSelected : State.reset.engine = .running ∧ nextIs (exec (.jne 0#8) State.reset)
    (fun t => decide (t.engine ≠ .faulted)) = true := by decide
theorem witness_SequentialAdvanceNeverWraps : (atPc 254#9 [0x47#8, 7#8]).engine = .running ∧
    decode false (codeBytes (atPc 254#9 [0x47#8, 7#8])) = .instr (.prn 7#8) [] ∧
    nextIs (step (atPc 254#9 [0x47#8, 7#8])) (fun t => decide (t.engine = .running ∧ t.pc = 256#9)) = true ∧
    nextPc (.prn 7#8) (atPc 254#9 [0x47#8, 7#8]) = seqPc (.prn 7#8) (atPc 254#9 [0x47#8, 7#8]) ∧
    254 + (encode (.prn 7#8)).length = 256 := by decide
theorem witness_RegistersWrittenOnlyAsListed :
    (∃ t, exec (.pop 0#8) (withReg State.reset 7 254#8) = .next t) ∧ (1 : Fin 8).val ∉ regsWritten (.pop 0#8) :=
  ⟨⟨_, rfl⟩, by decide⟩
theorem witness_OnlyCmpWritesFlags : (∀ a b : Byte, Instr.add 0#8 1#8 ≠ .cmp a b) ∧
    (∃ t, exec (.add 0#8 1#8) State.reset = .next t) ∧ FlagsLegal State.reset ∧ (∃ t, step State.reset = .next t) ∧
    (7#8).toNat < 8 :=
  ⟨fun _ _ => (by simp), ⟨_, rfl⟩, .inl rfl, ⟨_, rfl⟩, by decide⟩
theorem witness_MemoryFrame : (∃ t, exec (.push 0#8) State.reset = .next t) ∧
    storeAddress (.push 0#8) State.reset ≠ some 254 ∧ storeAddress (.pop 0#8) State.reset = none :=
  ⟨⟨_, rfl⟩, by decide, rfl⟩
theorem witness_OutputFrame : ∃ t, exec (.prn 7#8) State.reset = .next t := ⟨_, rfl⟩
theorem witness_EngineFrame : ∃ t, exec .hlt State.reset = .next t := ⟨_, rfl⟩
theorem witness_FaultIsPrecise : State.reset.engine = .running ∧ ∃ t, step State.reset = .next t ∧ t.engine = .faulted :=
  ⟨rfl, _, rfl, rfl⟩
theorem witness_FirstFaultTaken : (firstFault State.reset).isSome = true ∧ (firstFault (atPc 255#9 [1#8])).isSome = false := by
  decide
theorem witness_UnreachableFaultsNeverTaken : State.reset.fault = none ∧
    ∃ t f, step State.reset = .next t ∧ t.fault = some f := ⟨rfl, _, _, rfl, rfl⟩
theorem witness_OnlyEqualBitIsRead : (2#8).getLsbD 0 = (4#8).getLsbD 0 ∧
    (∃ t, step { State.reset with fl := 2#8 } = .next t) ∧ (∃ t, step { State.reset with fl := 4#8 } = .next t) ∧
    (∀ r : Byte, Instr.hlt ≠ .jeq r ∧ Instr.hlt ≠ .jne r) ∧ (∃ t, exec .hlt { State.reset with fl := 2#8 } = .next t) ∧
    ∃ t, exec .hlt { State.reset with fl := 1#8 } = .next t :=
  ⟨by decide, ⟨_, rfl⟩, ⟨_, rfl⟩, fun _ => ⟨by simp, by simp⟩, ⟨_, rfl⟩, ⟨_, rfl⟩⟩
theorem witness_OutputIsNeverRead : (∃ t, step { atPc 0#9 [0x47#8, 7#8] with outq := [] } = .next t) ∧
    ∃ t, step { atPc 0#9 [0x47#8, 7#8] with outq := [1#8] } = .next t :=
  ⟨⟨_, rfl⟩, ⟨_, rfl⟩⟩
theorem witness_LoadPlacesImage : ([1#8] : List Byte).length ≤ 256 ∧ (List.replicate 256 1#8 : List Byte).length ≤ 256 ∧
    256 < (List.replicate 257 1#8 : List Byte).length := by
  simp only [List.length_replicate]; decide
theorem witness_PlacedWordRuns : decodeTableWord 8 0xA1 = some (.sub 0#8 0#8) ∧ decodeTableWord 24 0x2A0382 = some (.ldi 3#8 42#8) := by
  decide
theorem witness_ResetMeetsInvariant : ∃ s, launch Config.normative [1#8] = some s := ⟨_, rfl⟩
theorem witness_StepKeepsInvariant : StateInv State.reset ∧ ∃ t, step State.reset = .next t :=
  ⟨⟨rfl, .inl rfl, Nat.zero_le _, fun h => by cases h⟩, _, rfl⟩
theorem witness_RunEndsAreDistinct : ∃ s, launch Config.normative [0x82#8, 0#8, 8#8] = some s := ⟨_, rfl⟩

end Sys2Proof.Tests
end

section
/-! The registers at reset (10_state.md section 1; notes/assumptions/3.md). -/

namespace Sys2Proof.Machine

open Sys2Proof

/-- Below the stack pointer, reset takes the configuration's values in order. -/
theorem resetWith_x_below_sp (c : Config) (r : Fin 7) : (State.resetWith c).x[r.val] = c.regReset[r] := by
  fin_cases r <;> rfl

/-- Settles O49: the seven registers by `resetWith_x_below_sp`; `State.reset` is the normative configuration's reset. -/
theorem resetRegisterChoice : Obligations.ResetRegisterChoice := by
  have hnormative : State.reset = State.resetWith ⟨false, Vector.replicate 7 0#8⟩ := rfl
  exact ⟨resetWith_x_below_sp, hnormative⟩

end Sys2Proof.Machine
end

section
/-! The values reset gives whatever the configuration (70_reset_and_hazards.md R320). -/

namespace Sys2Proof.Machine

open Sys2Proof

/-- Settles O48, value by value: R7 is `spReset`, and an empty memory reads `memDefault` everywhere. -/
theorem resetValues : Obligations.ResetValues := fun _ => ⟨rfl, rfl, rfl, rfl, rfl, rfl, fun _ => rfl⟩

end Sys2Proof.Machine
end

section
/-! What an instruction does, in one equation, `exec_eq` (40_cycle.md R147 parts 4 and 5): the checks of its meaning in
the order of 60_exceptions.md R292, and its effect where none of them fails. The frames of an instruction are read off
`raised` and `effect`, which are plain functions of the instruction and the state. -/

namespace Sys2Proof.Machine

open Sys2Proof

/-! ## A check, and what follows it -/

/-- The answer of a check that raises `raise`, or else gives `a`. -/
def resultOf {α : Type} (raise : Option Raise) (a : α) : Except Raise α := raise.elim (.ok a) .error

@[simp] theorem resultOf_none {α : Type} (a : α) : resultOf none a = .ok a := rfl

@[simp] theorem resultOf_some {α : Type} (r : Raise) (a : α) : resultOf (some r) a = .error r := rfl

/-- Two checks in a row raise what the first one raises, or else what the second one does. -/
theorem resultOf_bind {α β : Type} {a : α} {k : α → Except Raise β} {raise' : Option Raise} {b : β}
    (raise : Option Raise) (hk : k a = resultOf raise' b) :
    (resultOf raise a >>= k) = resultOf (raise.or raise') b := by
  cases raise with
  | none => exact hk
  | some r => rfl

/-- A check whose continuation raises nothing raises what it raises itself. -/
theorem resultOf_bind_ok {α β : Type} {a : α} {k : α → Except Raise β} {b : β} (raise : Option Raise)
    (hk : k a = .ok b) : (resultOf raise a >>= k) = resultOf raise b := by
  rw [resultOf_bind (raise' := none) raise hk, Option.or_none]

/-! ## The checks -/

/-- The register an operand byte below 8 names; a larger byte is refused before its register is used. -/
def regIndex (b : Byte) : Fin 8 := Fin.ofNat 8 b.toNat

theorem regIndex_of_lt {b : Byte} (h : b.toNat < 8) : regIndex b = ⟨b.toNat, h⟩ := Fin.ext (Nat.mod_eq_of_lt h)

/-- The register check: the first operand byte of 8 or more (10_state.md R35). -/
def operandRaise (operands : List Byte) : Option Raise :=
  (operands.find? fun r => decide (8 ≤ r.toNat)).map fun r => outOfRange .register r.toNat

@[simp] theorem operandRaise_nil : operandRaise [] = none := rfl

theorem operandRaise_valid {b : Byte} (h : b.toNat < 8) (bs : List Byte) :
    operandRaise (b :: bs) = operandRaise bs := by
  simp [operandRaise, Nat.not_le.mpr h]

theorem operandRaise_invalid {b : Byte} (h : 8 ≤ b.toNat) (bs : List Byte) :
    operandRaise (b :: bs) = some (outOfRange .register b.toNat) := by
  simp [operandRaise, h]

theorem operandRaise_eq_none {bs : List Byte} : operandRaise bs = none ↔ ∀ b ∈ bs, b.toNat < 8 := by
  simp [operandRaise]

theorem regOperand_eq (b : Byte) : regOperand b = resultOf (operandRaise [b]) (regIndex b) := by
  by_cases h : b.toNat < 8
  · simp [operandRaise_valid h, regOperand_valid h, regIndex_of_lt h]
  · simp [operandRaise_invalid (Nat.not_lt.mp h), regOperand_invalid (Nat.not_lt.mp h)]

theorem rrOperands_eq (a b : Byte) : rrOperands a b = resultOf (operandRaise [a, b]) (regIndex a, regIndex b) := by
  by_cases ha : a.toNat < 8
  · by_cases hb : b.toNat < 8
    · simp [operandRaise_valid ha, operandRaise_valid hb, rrOperands_valid ha hb, regIndex_of_lt ha, regIndex_of_lt hb]
    · have hb8 := Nat.not_lt.mp hb
      simp [operandRaise_valid ha, operandRaise_invalid hb8, rrOperands_invalidB ha hb8]
  · have ha8 := Nat.not_lt.mp ha
    simp [operandRaise_invalid ha8, rrOperands_invalidA b ha8]

/-- The stack check of PUSH and CALL (43_stack.md R231). -/
def overflowRaise (s : State) : Option Raise := if s.sp = 0#8 then some (stackOverflow s.sp) else none

theorem stackRoom_eq (s : State) : stackRoom s = resultOf (overflowRaise s) () := by
  by_cases h : s.sp = 0#8
  · simp [overflowRaise, h, stackRoom_full h]
  · simp [overflowRaise, h, stackRoom_ok h]

/-- The stack check of POP and RET (43_stack.md R232). -/
def underflowRaise (s : State) : Option Raise := if s.sp = 255#8 then some (stackUnderflow s.sp) else none

/-- The byte a pop reads (43_stack.md R230). -/
def poppedByte (s : State) : Byte := Memory.read s.mem (s.sp + 1#8).toNat

/-- The state a pop leaves (43_stack.md R230). -/
def popped (s : State) : State := writeReg s spIndex (s.sp + 1#8)

theorem popByte_eq_resultOf (s : State) : popByte s = resultOf (underflowRaise s) (poppedByte s, popped s) := by
  by_cases h : s.sp = 255#8
  · simp [underflowRaise, h, popByte_empty h]
  · simp only [underflowRaise, h, if_false, popByte_eq h, resultOf_none]
    rfl

/-- The state a push leaves (43_stack.md R230). -/
def pushed (v : Byte) (s : State) : State :=
  writeReg { s with mem := Memory.write s.mem s.sp.toNat v } spIndex (s.sp - 1#8)

theorem pushByte_eq_pushed (v : Byte) (s : State) : pushByte v s = .ok (pushed v s) := pushByte_eq v s

/-- CALL's check of its return address (44_control.md R251). -/
def returnRaise (s : State) : Option Raise :=
  if 255 < s.pc.toNat + 2 then some (outOfRange .value (s.pc.toNat + 2)) else none

/-- CALL's return address, where it is a byte. -/
def returnByte (s : State) : Byte := BitVec.ofNat 8 (s.pc.toNat + 2)

theorem returnAddress_eq (s : State) : returnAddress s = resultOf (returnRaise s) (returnByte s) := by
  by_cases h : 255 < s.pc.toNat + 2
  · simp [returnRaise, h, returnAddress_tooBig h]
  · simp [returnRaise, h, returnAddress_fits (Nat.not_lt.mp h), returnByte]

/-- The checks of the stack instructions, made after the register check (60_exceptions.md R292). -/
def stackRaise (i : Instr) (s : State) : Option Raise :=
  match i with
  | .push _ => overflowRaise s
  | .call _ => (overflowRaise s).or (returnRaise s)
  | .pop _ => underflowRaise s
  | .ret => underflowRaise s
  | _ => none

/-- What an instruction raises, or `none` where it completes. -/
def raised (i : Instr) (s : State) : Option Raise :=
  if i.present s.aluExt then (operandRaise i.regOperands).or (stackRaise i s)
  else some (invalidOpcode (opcodeOf (mnemonicOf i)))

theorem operands_lt_of_raised {i : Instr} {s : State} (h : raised i s = none) : ∀ b ∈ i.regOperands, b.toNat < 8 := by
  simp only [raised] at h
  split at h
  · exact operandRaise_eq_none.mp (Option.or_eq_none_iff.mp h).1
  · cases h

/-! ## The effects -/

/-- The effect of a register-register instruction (42_alu.md section 2). -/
def aluEffect (m : Mnemonic) (f : AluOp) (a b : Byte) (s : State) : State :=
  advance m (writeAluOut (regIndex a) (alu f (readReg s (regIndex a)) (readReg s (regIndex b))) s)

/-- The effect of a conditional branch (40_cycle.md R149). -/
def branchEffect (m : Mnemonic) (taken : Bool) (r : Byte) (s : State) : State :=
  if taken then jumpTo (readReg s (regIndex r)) s else advance m s

/-- The state after an instruction that raises nothing. -/
def effect (i : Instr) (s : State) : State :=
  match i with
  | .hlt => advance .hlt { s with engine := .halted }
  | .ret => jumpTo (poppedByte s) (popped s)
  | .push r => advance .push (pushed (readReg s (regIndex r)) s)
  | .pop r => advance .pop (writeReg (popped s) (regIndex r) (poppedByte s))
  | .prn r => advance .prn (emit (readReg s (regIndex r)) s)
  | .call r => jumpTo (readReg (pushed (returnByte s) s) (regIndex r)) (pushed (returnByte s) s)
  | .jmp r => jumpTo (readReg s (regIndex r)) s
  | .jeq r => branchEffect .jeq (flagE s.fl) r s
  | .jne r => branchEffect .jne (!flagE s.fl) r s
  | .ldi r v => advance .ldi (writeReg s (regIndex r) v)
  | .add a b => aluEffect .add .add a b s
  | .sub a b => aluEffect .sub .sub a b s
  | .mul a b => aluEffect .mul .mul a b s
  | .cmp a b => aluEffect .cmp .cmp a b s
  | .and a b => aluEffect .and .and a b s
  | .or a b => aluEffect .or .or a b s
  | .xor a b => aluEffect .xor .xor a b s

/-! ## The equation -/

theorem regOperand_bind {k : Fin 8 → Except Raise State} {raise : Option Raise} {t : State} (b : Byte)
    (hk : k (regIndex b) = resultOf raise t) : (regOperand b >>= k) = resultOf ((operandRaise [b]).or raise) t := by
  rw [regOperand_eq, resultOf_bind _ hk]

/-- After the register check an ALU instruction has no other. -/
theorem aluBody_eq (m : Mnemonic) (f : AluOp) (a b : Byte) (s : State) :
    aluBody m (some f) a b s = resultOf ((operandRaise [a, b]).or none) (aluEffect m f a b s) := by
  rw [aluBody, rrOperands_eq]
  exact resultOf_bind _ rfl

theorem aluExtBody_eq (m : Mnemonic) (f : AluOp) (a b : Byte) (s : State) :
    aluExtBody m (some f) a b s =
      resultOf (if s.aluExt then (operandRaise [a, b]).or none else some (invalidOpcode (opcodeOf m)))
        (aluEffect m f a b s) := by
  cases h : s.aluExt
  · simp [aluExtBody_off h]
  · simp [aluExtBody_on h, aluBody_eq]

theorem popByte_bind {k : Byte × State → Except Raise State} {s t : State}
    (hk : k (poppedByte s, popped s) = .ok t) : (popByte s >>= k) = resultOf (underflowRaise s) t := by
  rw [popByte_eq_resultOf, resultOf_bind_ok _ hk]

/-- An instruction ends with the first check that fails, or with its effect. -/
theorem exec_eq (i : Instr) (s : State) :
    exec i s = finish (opcodeOf (mnemonicOf i)) s (resultOf (raised i s) (effect i s)) := by
  cases i with
  | hlt => rfl
  | ret => exact congrArg (finish _ s) (popByte_bind rfl)
  | pop r => exact congrArg (finish _ s) (regOperand_bind r (popByte_bind rfl))
  | push r =>
    refine congrArg (finish _ s) (regOperand_bind r ?_)
    rw [stackRoom_eq]
    exact resultOf_bind_ok _ (by rw [pushByte_eq_pushed]; rfl)
  | call r =>
    refine congrArg (finish _ s) (regOperand_bind r ?_)
    rw [stackRoom_eq, returnAddress_eq]
    exact resultOf_bind _ (resultOf_bind_ok _ (by rw [pushByte_eq_pushed]; rfl))
  | prn r => exact congrArg (finish _ s) (regOperand_bind r rfl)
  | jmp r => exact congrArg (finish _ s) (regOperand_bind r rfl)
  | jeq r => exact congrArg (finish _ s) (regOperand_bind r rfl)
  | jne r => exact congrArg (finish _ s) (regOperand_bind r rfl)
  | ldi r v => exact congrArg (finish _ s) (regOperand_bind r rfl)
  | add a b => exact congrArg (finish _ s) (aluBody_eq .add .add a b s)
  | mul a b => exact congrArg (finish _ s) (aluBody_eq .mul .mul a b s)
  | cmp a b => exact congrArg (finish _ s) (aluBody_eq .cmp .cmp a b s)
  | sub a b => exact congrArg (finish _ s) (aluExtBody_eq .sub .sub a b s)
  | and a b => exact congrArg (finish _ s) (aluExtBody_eq .and .and a b s)
  | or a b => exact congrArg (finish _ s) (aluExtBody_eq .or .or a b s)
  | xor a b => exact congrArg (finish _ s) (aluExtBody_eq .xor .xor a b s)

end Sys2Proof.Machine
end

section
/-! What an instruction and a step can answer, and the frames of the effect, field by field. -/

namespace Sys2Proof.Machine

open Sys2Proof

/-! ## Outcomes -/

theorem exec_of_raised {i : Instr} {s : State} {r : Raise} (h : raised i s = some r) :
    exec i s = .next (takeFault r (some (opcodeOf (mnemonicOf i))) s) := by
  rw [exec_eq, h, resultOf_some, finish_error]

theorem exec_of_completes {i : Instr} {s : State} (h : raised i s = none) : exec i s = .next (effect i s) := by
  rw [exec_eq, h, resultOf_none, finish_ok]

/-- An instruction faults or has its effect. -/
theorem exec_cases {i : Instr} {s t : State} (h : exec i s = .next t) :
    (∃ r, raised i s = some r ∧ t = takeFault r (some (opcodeOf (mnemonicOf i))) s) ∨
      (raised i s = none ∧ t = effect i s) := by
  cases hr : raised i s with
  | some r => exact .inl ⟨r, rfl, by simpa [exec_of_raised hr] using h.symm⟩
  | none => exact .inr ⟨rfl, by simpa [exec_of_completes hr] using h.symm⟩

theorem step_of_raised {s : State} {r : Raise} {op : Option Byte} (h : s.engine = .running)
    (hf : fetch s = .raised r op) : step s = .next (takeFault r op s) := by
  rw [step_running h, hf]

theorem step_of_fetched {s : State} {i : Instr} (h : s.engine = .running) (hf : fetch s = .instr i) :
    step s = exec i s := by
  rw [step_running h, hf]

/-- A step stays where the core has ended, faults in its fetch, or is one instruction. -/
theorem step_cases {s t : State} (h : step s = .next t) :
    (s.engine ≠ .running ∧ t = s) ∨
      (∃ r op, s.engine = .running ∧ fetch s = .raised r op ∧ t = takeFault r op s) ∨
      ∃ i, s.engine = .running ∧ fetch s = .instr i ∧ exec i s = .next t := by
  by_cases he : s.engine = .running
  · cases hf : fetch s with
    | raised r op => exact .inr (.inl ⟨r, op, he, rfl, by simpa [step_of_raised he hf] using h.symm⟩)
    | instr i => exact .inr (.inr ⟨i, he, rfl, by rwa [← step_of_fetched he hf]⟩)
  · exact .inl ⟨he, by simpa [step_ended he] using h.symm⟩

/-! ## Frames of the effect -/

@[simp] theorem branchEffect_fl (m : Mnemonic) (taken : Bool) (r : Byte) (s : State) :
    (branchEffect m taken r s).fl = s.fl := by cases taken <;> rfl
@[simp] theorem branchEffect_engine (m : Mnemonic) (taken : Bool) (r : Byte) (s : State) :
    (branchEffect m taken r s).engine = s.engine := by cases taken <;> rfl
@[simp] theorem branchEffect_fault (m : Mnemonic) (taken : Bool) (r : Byte) (s : State) :
    (branchEffect m taken r s).fault = s.fault := by cases taken <;> rfl
@[simp] theorem branchEffect_outq (m : Mnemonic) (taken : Bool) (r : Byte) (s : State) :
    (branchEffect m taken r s).outq = s.outq := by cases taken <;> rfl
@[simp] theorem branchEffect_aluExt (m : Mnemonic) (taken : Bool) (r : Byte) (s : State) :
    (branchEffect m taken r s).aluExt = s.aluExt := by cases taken <;> rfl

@[simp] theorem effect_aluExt (i : Instr) (s : State) : (effect i s).aluExt = s.aluExt := by
  cases i with
  | jeq r => exact branchEffect_aluExt ..
  | jne r => exact branchEffect_aluExt ..
  | _ => rfl

@[simp] theorem effect_fault (i : Instr) (s : State) : (effect i s).fault = s.fault := by
  cases i with
  | jeq r => exact branchEffect_fault ..
  | jne r => exact branchEffect_fault ..
  | _ => rfl

theorem effect_engine {i : Instr} (h : i ≠ .hlt) (s : State) : (effect i s).engine = s.engine := by
  cases i with
  | hlt => exact absurd rfl h
  | jeq r => exact branchEffect_engine ..
  | jne r => exact branchEffect_engine ..
  | _ => rfl

theorem effect_outq {i : Instr} (h : ∀ r, i ≠ .prn r) (s : State) : (effect i s).outq = s.outq := by
  cases i with
  | prn r => exact absurd rfl (h r)
  | jeq r => exact branchEffect_outq ..
  | jne r => exact branchEffect_outq ..
  | _ => rfl

theorem effect_fl {i : Instr} (h : ∀ a b, i ≠ .cmp a b) (s : State) : (effect i s).fl = s.fl := by
  cases i with
  | cmp a b => exact absurd rfl (h a b)
  | jeq r => exact branchEffect_fl ..
  | jne r => exact branchEffect_fl ..
  | _ => rfl

/-- Settles O42: a fault is `takeFault`; the effect of HLT enters Halted, and no other effect moves the engine. -/
theorem engineFrame : Obligations.EngineFrame := by
  intro i s t h
  obtain ⟨r, -, rfl⟩ | ⟨-, rfl⟩ := exec_cases h
  · exact ⟨rfl, .inr (.inr ⟨rfl, rfl, rfl⟩)⟩
  · by_cases hi : i = .hlt
    · subst hi
      exact ⟨rfl, .inr (.inl ⟨rfl, rfl, rfl⟩)⟩
    · exact ⟨effect_aluExt i s, .inl ⟨effect_engine hi s, effect_fault i s⟩⟩

/-- Settles O41: a fault and the effect of any instruction but PRN leave the output; PRN's effect emits its register. -/
theorem outputFrame : Obligations.OutputFrame := by
  intro i s t h
  obtain ⟨r, -, rfl⟩ | ⟨hraised, rfl⟩ := exec_cases h
  · exact .inl rfl
  · by_cases hi : ∃ r, i = .prn r
    · obtain ⟨r, rfl⟩ := hi
      have hr : r.toNat < 8 := operands_lt_of_raised hraised r List.mem_cons_self
      have hvalue : readReg s (regIndex r) = s.x[r.toNat] := by rw [regIndex_of_lt hr]; rfl
      exact .inr ⟨r, hr, rfl, congrArg (fun v => s.outq ++ [v]) hvalue⟩
    · exact .inl (effect_outq (fun r e => hi ⟨r, e⟩) s)

/-- A comparison sets exactly one of E, G and L (42_alu.md R196). -/
theorem compareFlags_cases (a b : Byte) :
    compareFlags a b = 0b001#8 ∨ compareFlags a b = 0b010#8 ∨ compareFlags a b = 0b100#8 := by
  unfold compareFlags
  split
  · exact .inr (.inr rfl)
  · split
    · exact .inr (.inl rfl)
    · exact .inl rfl

theorem raised_cmp {a b : Byte} (ha : a.toNat < 8) (hb : b.toNat < 8) (s : State) : raised (.cmp a b) s = none := by
  have hoperands : operandRaise [a, b] = none := by rw [operandRaise_valid ha, operandRaise_valid hb, operandRaise_nil]
  exact Option.or_eq_none_iff.mpr ⟨hoperands, rfl⟩

theorem effect_flagsLegal {s : State} (h : FlagsLegal s) (i : Instr) : FlagsLegal (effect i s) := by
  by_cases hi : ∃ a b, i = .cmp a b
  · obtain ⟨a, b, rfl⟩ := hi
    exact .inr (compareFlags_cases _ _)
  · rwa [FlagsLegal, effect_fl (fun a b e => hi ⟨a, b, e⟩)]

theorem step_flagsLegal {s t : State} (h : FlagsLegal s) (hstep : step s = .next t) : FlagsLegal t := by
  obtain ⟨-, rfl⟩ | ⟨r, op, -, -, rfl⟩ | ⟨i, -, -, hexec⟩ := step_cases hstep
  · exact h
  · exact h
  · obtain ⟨r, -, rfl⟩ | ⟨-, rfl⟩ := exec_cases hexec
    · exact h
    · exact effect_flagsLegal h i

/-- Settles O39: FL is written by CMP's effect alone, with one of the three bits. -/
theorem onlyCmpWritesFlags : Obligations.OnlyCmpWritesFlags := by
  refine ⟨fun i s t hi h => ?_, fun a b s ha hb => ?_, .inl rfl, fun s t => step_flagsLegal⟩
  · obtain ⟨r, -, rfl⟩ | ⟨-, rfl⟩ := exec_cases h
    · rfl
    · exact effect_fl hi s
  · exact ⟨_, exec_of_completes (raised_cmp ha hb s), compareFlags_cases _ _, rfl⟩

end Sys2Proof.Machine
end

section
/-! Noninterference: what a step makes of two states that agree in all it reads. FL (10_state.md R47) and the output
port (R58) are the two cases. -/

namespace Sys2Proof.Machine

open Sys2Proof

/-! ## The rule -/

/-- An instruction takes related states to related states where both raise the same and faults and effects are
related. -/
theorem exec_related (R : State → State → Prop) {i : Instr} {s1 s2 t1 t2 : State} (h1 : exec i s1 = .next t1)
    (h2 : exec i s2 = .next t2) (hraised : raised i s1 = raised i s2)
    (hfault : ∀ r op, R (takeFault r op s1) (takeFault r op s2)) (heffect : R (effect i s1) (effect i s2)) : R t1 t2 := by
  obtain ⟨r1, hr1, rfl⟩ | ⟨hn1, rfl⟩ := exec_cases h1 <;> obtain ⟨r2, hr2, rfl⟩ | ⟨hn2, rfl⟩ := exec_cases h2
  · obtain rfl : r1 = r2 := Option.some.inj (by rw [← hr1, hraised, hr2])
    exact hfault ..
  · simp [hraised, hn2] at hr1
  · simp [← hraised, hn1] at hr2
  · exact heffect

/-- A step takes related states to related states where both fetch the same and faults and instructions keep the
relation. -/
theorem step_related (R : State → State → Prop) {s1 s2 t1 t2 : State} (h1 : step s1 = .next t1)
    (h2 : step s2 = .next t2) (hs : R s1 s2) (hengine : s1.engine = s2.engine) (hfetch : fetch s1 = fetch s2)
    (hfault : ∀ r op, R (takeFault r op s1) (takeFault r op s2))
    (hexec : ∀ i, exec i s1 = .next t1 → exec i s2 = .next t2 → R t1 t2) : R t1 t2 := by
  by_cases he : s1.engine = .running
  · have he2 : s2.engine = .running := hengine ▸ he
    cases hf : fetch s1 with
    | raised r op =>
      rw [step_of_raised he hf] at h1
      rw [step_of_raised he2 (hfetch ▸ hf)] at h2
      cases h1
      cases h2
      exact hfault r op
    | instr i =>
      rw [step_of_fetched he hf] at h1
      rw [step_of_fetched he2 (hfetch ▸ hf)] at h2
      exact hexec i h1 h2
  · rw [step_ended he] at h1
    rw [step_ended (hengine ▸ he)] at h2
    cases h1
    cases h2
    exact hs

/-! ## FL -/

/-- `s` with another value of FL. -/
def withFlags (f : Byte) (s : State) : State := { s with fl := f }

/-- The states differ in FL at most. -/
def SameButFlags (s t : State) : Prop := withFlags 0#8 s = withFlags 0#8 t

/-- JEQ and JNE find the same E in both values; another instruction may be given any two. -/
def FlagsAlike (i : Instr) (f1 f2 : Byte) : Prop := (∀ r, i ≠ .jeq r ∧ i ≠ .jne r) ∨ flagE f1 = flagE f2

theorem branchEffect_withFlags (m : Mnemonic) (taken : Bool) (r f : Byte) (s : State) :
    branchEffect m taken r (withFlags f s) = withFlags f (branchEffect m taken r s) := by cases taken <;> rfl

theorem raised_withFlags (f : Byte) (i : Instr) (s : State) : raised i (withFlags f s) = raised i s := by
  cases i <;> rfl

theorem effect_sameButFlags {i : Instr} {f1 f2 : Byte} (h : FlagsAlike i f1 f2) (s : State) :
    SameButFlags (effect i (withFlags f1 s)) (effect i (withFlags f2 s)) := by
  cases i with
  | jeq r =>
    have hE : flagE f1 = flagE f2 := h.resolve_left fun hi => (hi r).1 rfl
    change SameButFlags (branchEffect .jeq (flagE f1) r _) (branchEffect .jeq (flagE f2) r _)
    rw [hE, branchEffect_withFlags, branchEffect_withFlags]
    rfl
  | jne r =>
    have hE : flagE f1 = flagE f2 := h.resolve_left fun hi => (hi r).2 rfl
    change SameButFlags (branchEffect .jne (!flagE f1) r _) (branchEffect .jne (!flagE f2) r _)
    rw [hE, branchEffect_withFlags, branchEffect_withFlags]
    rfl
  | _ => rfl

theorem exec_sameButFlags {i : Instr} {f1 f2 : Byte} {s t1 t2 : State} (h : FlagsAlike i f1 f2)
    (h1 : exec i (withFlags f1 s) = .next t1) (h2 : exec i (withFlags f2 s) = .next t2) : SameButFlags t1 t2 :=
  exec_related SameButFlags h1 h2 (by rw [raised_withFlags, raised_withFlags]) (fun _ _ => rfl) (effect_sameButFlags h s)

theorem step_sameButFlags {f1 f2 : Byte} {s t1 t2 : State} (h : flagE f1 = flagE f2)
    (h1 : step (withFlags f1 s) = .next t1) (h2 : step (withFlags f2 s) = .next t2) : SameButFlags t1 t2 :=
  step_related SameButFlags h1 h2 rfl rfl rfl (fun _ _ => rfl) fun _ => exec_sameButFlags (.inr h)

/-- Settles O46: the checks never read FL, and the effects read it in JEQ and JNE alone, through `flagE`. -/
theorem onlyEqualBitIsRead : Obligations.OnlyEqualBitIsRead :=
  ⟨fun _ _ _ _ _ hE h1 h2 => step_sameButFlags hE h1 h2, fun _ _ _ _ _ _ hi h1 h2 => exec_sameButFlags (.inl hi) h1 h2⟩

/-! ## The output -/

/-- `s` with another output. -/
def withOutput (q : List Byte) (s : State) : State := { s with outq := q }

/-- The states differ in the output at most, and the outputs are `q1` and `q2` with the same values after them. -/
def SameButOutput (q1 q2 : List Byte) (s t : State) : Prop :=
  withOutput [] s = withOutput [] t ∧ ∃ new, s.outq = q1 ++ new ∧ t.outq = q2 ++ new

theorem sameButOutput_withOutput (q1 q2 : List Byte) (s : State) :
    SameButOutput q1 q2 (withOutput q1 s) (withOutput q2 s) :=
  ⟨rfl, [], q1.append_nil.symm, q2.append_nil.symm⟩

theorem branchEffect_withOutput (m : Mnemonic) (taken : Bool) (r : Byte) (q : List Byte) (s : State) :
    branchEffect m taken r (withOutput q s) = withOutput q (branchEffect m taken r s) := by cases taken <;> rfl

theorem raised_withOutput (q : List Byte) (i : Instr) (s : State) : raised i (withOutput q s) = raised i s := by
  cases i <;> rfl

theorem effect_withOutput {i : Instr} (h : ∀ r, i ≠ .prn r) (q : List Byte) (s : State) :
    effect i (withOutput q s) = withOutput q (effect i s) := by
  cases i with
  | prn r => exact absurd rfl (h r)
  | jeq r => exact branchEffect_withOutput ..
  | jne r => exact branchEffect_withOutput ..
  | _ => rfl

theorem effect_sameButOutput (q1 q2 : List Byte) (i : Instr) (s : State) :
    SameButOutput q1 q2 (effect i (withOutput q1 s)) (effect i (withOutput q2 s)) := by
  by_cases hi : ∃ r, i = .prn r
  · obtain ⟨r, rfl⟩ := hi
    exact ⟨rfl, [readReg s (regIndex r)], rfl, rfl⟩
  · have hprn (r : Byte) : i ≠ .prn r := fun e => hi ⟨r, e⟩
    rw [effect_withOutput hprn, effect_withOutput hprn]
    exact sameButOutput_withOutput ..

theorem exec_sameButOutput {q1 q2 : List Byte} {i : Instr} {s t1 t2 : State}
    (h1 : exec i (withOutput q1 s) = .next t1) (h2 : exec i (withOutput q2 s) = .next t2) : SameButOutput q1 q2 t1 t2 :=
  exec_related (SameButOutput q1 q2) h1 h2 (by rw [raised_withOutput, raised_withOutput])
    (fun r op => sameButOutput_withOutput q1 q2 (takeFault r op s)) (effect_sameButOutput q1 q2 i s)

/-- Settles O47: the fetch and the checks never read the output, and the effects only append to it, in PRN. -/
theorem outputIsNeverRead : Obligations.OutputIsNeverRead := fun s _ _ q1 q2 h1 h2 =>
  step_related (SameButOutput q1 q2) h1 h2 (sameButOutput_withOutput q1 q2 s) rfl rfl
    (fun r op => sameButOutput_withOutput q1 q2 (takeFault r op s)) fun _ => exec_sameButOutput

end Sys2Proof.Machine
end

section
/-! The next `pc` of an instruction that completes, and the sequential advance (10_state.md R43, 40_cycle.md R149). -/

namespace Sys2Proof.Machine

open Sys2Proof

theorem encode_length (i : Instr) : (encode i).length = ilen (opcodeOf (mnemonicOf i)) :=
  (Laws.OperandLength.of_operandCount (by cases i <;> rfl)).1

theorem mnemonicOf_assemble (m : Mnemonic) (a b : Byte) : mnemonicOf (assemble m a b) = m := by cases m <;> rfl

/-! ## Fetching and decoding -/

/-- What a fetch that gives an instruction has read: the opcode of a present row, and operand bytes that all lie in
memory. -/
theorem fetch_instr {s : State} {i : Instr} (h : fetch s = .instr i) :
    ∃ m, Memory.read s.mem s.pc.toNat = opcodeOf m ∧ decodeOpcode s.aluExt (opcodeOf m) = some m ∧
      s.pc.toNat + ilen (opcodeOf m) ≤ 256 ∧
      i = assemble m (Memory.read s.mem (s.pc.toNat + 1)) (Memory.read s.mem (s.pc.toNat + 2)) := by
  rw [fetch_spec] at h
  by_cases hpc : 255 < s.pc.toNat
  · simp [hpc] at h
  · cases hd : decodeOpcode s.aluExt (Memory.read s.mem s.pc.toNat) with
    | none => simp [hpc, hd] at h
    | some m =>
      obtain ⟨hop, -⟩ := decodeOpcode_some hd
      rw [← hop] at h hd
      by_cases hfits : 256 < s.pc.toNat + ilen (opcodeOf m)
      · simp [hpc, hd, hfits] at h
      · refine ⟨m, hop.symm, hd, Nat.not_lt.mp hfits, ?_⟩
        simpa [hpc, hd, hfits] using h.symm

/-- A fetched instruction ends at an address of memory, or at its last one. -/
theorem fetch_instr_fits {s : State} {i : Instr} (h : fetch s = .instr i) : s.pc.toNat + (encode i).length ≤ 256 := by
  obtain ⟨m, -, -, hfits, rfl⟩ := fetch_instr h
  rwa [encode_length, mnemonicOf_assemble]

/-- Decoding the bytes of memory from a row's opcode on gives the row's instruction. -/
theorem decode_bytesFrom {aluExt : Bool} {mem : Memory} {a n : Nat} {m : Mnemonic}
    (hop : Memory.read mem a = opcodeOf m) (hd : decodeOpcode aluExt (opcodeOf m) = some m) (hn : ilen (opcodeOf m) ≤ n) :
    ∃ rest, decode aluExt (bytesFrom mem a n) =
      .instr (assemble m (Memory.read mem (a + 1)) (Memory.read mem (a + 2))) rest := by
  rcases ilen_opcodeOf_cases m with e | e | e
  · obtain ⟨k, rfl⟩ := Nat.exists_eq_add_of_le' (e ▸ hn)
    simp [bytesFrom, decode, hop, hd, e,
      assemble_of_ilen_one e 0#8 0#8 (Memory.read mem (a + 1)) (Memory.read mem (a + 2))]
  · obtain ⟨k, rfl⟩ := Nat.exists_eq_add_of_le' (e ▸ hn)
    simp [bytesFrom, decode, hop, hd, e, assemble_of_ilen_two e _ 0#8 (Memory.read mem (a + 2))]
  · obtain ⟨k, rfl⟩ := Nat.exists_eq_add_of_le' (e ▸ hn)
    simp [bytesFrom, decode, hop, hd, e]

/-- What the step fetches is what the decoder reads from the state's code (40_cycle.md R145). -/
theorem decode_codeBytes {s : State} {i : Instr} (h : fetch s = .instr i) :
    ∃ rest, decode s.aluExt (codeBytes s) = .instr i rest := by
  obtain ⟨m, hop, hd, hfits, rfl⟩ := fetch_instr h
  exact decode_bytesFrom hop hd (by simp only [memSize]; omega)

/-! ## The next pc -/

theorem regAt_of_lt (x : Vector Byte 8) {b : Byte} (h : b.toNat < 8) : regAt x b = x[b.toNat] := by
  simp [regAt, h]

theorem readReg_regIndex (s : State) {b : Byte} (h : b.toNat < 8) : readReg s (regIndex b) = regAt s.x b := by
  rw [regIndex_of_lt h, regAt_of_lt _ h]
  rfl

theorem seqPc_eq (i : Instr) (s : State) : seqPc i s = s.pc + BitVec.ofNat 9 (ilen (opcodeOf (mnemonicOf i))) := by
  rw [seqPc, encode_length]

theorem branchEffect_pc (m : Mnemonic) (taken : Bool) (r : Byte) (s : State) :
    (branchEffect m taken r s).pc = if taken then zext9 (readReg s (regIndex r)) else (advance m s).pc := by
  cases taken <;> rfl

/-- An instruction that raises nothing goes where the multiplexer's table says (40_cycle.md R149). -/
theorem effect_pc {i : Instr} {s : State} (h : raised i s = none) : (effect i s).pc = nextPc i s := by
  have hreg := operands_lt_of_raised h
  cases i with
  | jmp r => exact congrArg zext9 (readReg_regIndex s (hreg r List.mem_cons_self))
  | call r => exact congrArg zext9 (readReg_regIndex (pushed (returnByte s) s) (hreg r List.mem_cons_self))
  | jeq r =>
    have htarget : readReg s (regIndex r) = regAt s.x r := readReg_regIndex s (hreg r List.mem_cons_self)
    simp [effect, branchEffect_pc, nextPc, flagE, htarget, zext9, seqPc_eq, mnemonicOf]
  | jne r =>
    have htarget : readReg s (regIndex r) = regAt s.x r := readReg_regIndex s (hreg r List.mem_cons_self)
    simp [effect, branchEffect_pc, nextPc, flagE, htarget, zext9, seqPc_eq, mnemonicOf]
  | _ => rfl

/-- A step that completes an instruction is the effect of the instruction it fetched. -/
theorem step_completed {s t : State} (hrun : s.engine = .running) (h : step s = .next t) (hok : t.engine ≠ .faulted) :
    ∃ i, fetch s = .instr i ∧ raised i s = none ∧ t = effect i s := by
  obtain ⟨hne, -⟩ | ⟨r, op, -, -, rfl⟩ | ⟨i, -, hf, hexec⟩ := step_cases h
  · exact absurd hrun hne
  · exact absurd rfl hok
  · obtain ⟨r, -, rfl⟩ | ⟨hn, rfl⟩ := exec_cases hexec
    · exact absurd rfl hok
    · exact ⟨i, hf, hn, rfl⟩

/-- The sum of a sequential advance that stays within 9 bits is exact. -/
theorem seqPc_toNat {i : Instr} {s : State} (h : s.pc.toNat + (encode i).length ≤ 256) :
    (seqPc i s).toNat = s.pc.toNat + (encode i).length := by
  simp only [seqPc, BitVec.toNat_add, BitVec.toNat_ofNat]
  omega

/-- A fetch at 256 has no opcode (40_cycle.md R142). -/
theorem step_at_end {s : State} (hrun : s.engine = .running) (h : s.pc = 256#9) :
    step s = .next (faulted s none .outOfRange (some .fetch) 256#9) := by
  have hfetch : fetch s = .raised (outOfRange .fetch 256) none := by simp [fetch_spec, h]
  exact step_of_raised hrun hfetch

/-- Settles O37: a completed step goes to `nextPc`, here `SEQ`, and the sum is exact because the instruction that was
fetched ends within memory. -/
theorem sequentialAdvanceNeverWraps : Obligations.SequentialAdvanceNeverWraps := by
  intro s t i rest hrun hdecode hstep hok hseq
  obtain ⟨j, hfetch, hraised, rfl⟩ := step_completed hrun hstep hok
  obtain ⟨rest', hj⟩ := decode_codeBytes hfetch
  obtain ⟨rfl, -⟩ : j = i ∧ rest' = rest := by simpa [hj] using hdecode
  have hfits := fetch_instr_fits hfetch
  have hpc : (effect j s).pc.toNat = s.pc.toNat + (encode j).length := by
    rw [effect_pc hraised, hseq, seqPc_toNat hfits]
  refine ⟨hpc, hpc ▸ hfits, fun hend hrun' => step_at_end hrun' (BitVec.eq_of_toNat_eq ?_)⟩
  rw [hpc, hend]
  rfl

end Sys2Proof.Machine
end

section
/-! Images in memory, and the first byte of the code (20_memory.md R83, R85, R87). -/

namespace Sys2Proof.Machine

open Sys2Proof

/-- Placed bytes read back, and every address without one reads as before (20_memory.md R85). -/
theorem read_placeBytes {m : Memory} (h : Memory.wf m = true) (a : Nat) (bs : List Byte) (b : Nat) :
    Memory.read (placeBytes m a bs) b =
      if a ≤ b ∧ b < memSize then bs.getD (b - a) (Memory.read m b) else Memory.read m b := by
  induction bs generalizing m a with
  | nil => simp [placeBytes]
  | cons v bs ih =>
    by_cases ha : a < memSize
    · rw [placeBytes, if_pos ha, ih (write_wf h ha), read_write h]
      obtain hlt | rfl | hgt := Nat.lt_trichotomy b a
      · rw [if_neg (by omega), if_neg (by omega), if_neg (by omega)]
      · simp [ha]
      · have hindex : b - a = b - (a + 1) + 1 := by omega
        simp [hindex, hgt, hgt.le, hgt.ne']
    · have hout : ¬(a ≤ b ∧ b < memSize) := by omega
      rw [placeBytes, if_neg ha, if_neg hout]

/-- An image that fits, placed over zeros, is what memory reads: 0 from its length on (20_memory.md R85). -/
theorem read_placeBytes_nil {image : List Byte} (h : image.length ≤ memSize) (a : Nat) :
    Memory.read (placeBytes [] 0 image) a = image.getD a 0#8 := by
  rw [read_placeBytes rfl]
  split
  · rfl
  · have hpast : image.length ≤ a := by omega
    exact (List.getD_eq_default _ _ hpast).symm

theorem launch_of_fits (c : Config) {image : List Byte} (h : image.length ≤ memSize) :
    launch c image = some { State.resetWith c with mem := placeBytes [] 0 image } := if_pos h

theorem launch_of_too_long (c : Config) {image : List Byte} (h : memSize < image.length) : launch c image = none :=
  if_neg (Nat.not_le.mpr h)

/-- Settles O50: the reset's memory is empty, so the placed image is all that memory reads (`read_placeBytes_nil`). -/
theorem loadPlacesImage : Obligations.LoadPlacesImage :=
  ⟨fun c _ hfits => ⟨_, launch_of_fits c hfits, read_placeBytes_nil hfits⟩, fun c _ hlong => launch_of_too_long c hlong⟩

/-- At an address of memory the first byte of the code is the byte at `pc`. -/
theorem head?_codeBytes {s : State} (h : s.pc.toNat < memSize) :
    (codeBytes s).head? = some (Memory.read s.mem s.pc.toNat) := by
  obtain ⟨n, hn⟩ := Nat.exists_eq_add_of_lt h
  have hcount : memSize - s.pc.toNat = n + 1 := by omega
  rw [codeBytes, hcount]
  rfl

theorem raised_push {r : Byte} {s : State} (hr : r.toNat < 8) (hsp : s.x[7] ≠ 0#8) : raised (.push r) s = none := by
  have hoperands : operandRaise [r] = none := by rw [operandRaise_valid hr, operandRaise_nil]
  exact Option.or_eq_none_iff.mpr ⟨hoperands, if_neg hsp⟩

theorem effect_push_mem {r : Byte} (hr : r.toNat < 8) (s : State) :
    (effect (.push r) s).mem = Memory.write s.mem s.x[7].toNat s.x[r.toNat] := by
  rw [← regAt_of_lt s.x hr, ← readReg_regIndex s hr]
  rfl

theorem effect_push_pc (r : Byte) (s : State) : (effect (.push r) s).pc = s.pc + 2#9 := rfl

/-- Settles O29: PUSH stores at the old SP, which is where the code of the state after it begins. -/
theorem pushIntoCodeIsFetched : Obligations.PushIntoCodeIsFetched := by
  intro s r hr hmem hsp
  have hroom : s.x[7] ≠ 0#8 := fun h0 => by simp [h0] at hsp
  have hpc : (effect (.push r) s).pc.toNat = s.x[7].toNat := by
    simp only [effect_push_pc, BitVec.toNat_add, BitVec.toNat_ofNat]
    omega
  have hbyte : (effect (.push r) s).pc.toNat < memSize := hpc ▸ s.x[7].isLt
  refine ⟨_, exec_of_completes (raised_push hr hroom), ?_⟩
  rw [head?_codeBytes hbyte, hpc, effect_push_mem hr, read_write hmem, if_pos rfl]

end Sys2Proof.Machine
end

section
/-! Decoding and encoding (30_encoding.md sections 1 and 3). Every instruction is assembled from a row and two operand
bytes, and `wordBytes` is what it occupies: the encoder writes exactly that, and the decoder reads exactly that. -/

namespace Sys2Proof.Machine

open Sys2Proof

/-- The bytes of a row with the operand bytes `b1` and `b2`, as many as the row's opcode says (30_encoding.md R100). -/
def wordBytes (m : Mnemonic) (b1 b2 : Byte) : List Byte := [opcodeOf m, b1, b2].take (ilen (opcodeOf m))

theorem wordBytes_of_ilen_one {m : Mnemonic} (h : ilen (opcodeOf m) = 1) (b1 b2 : Byte) :
    wordBytes m b1 b2 = [opcodeOf m] := by rw [wordBytes, h]; rfl

theorem wordBytes_of_ilen_two {m : Mnemonic} (h : ilen (opcodeOf m) = 2) (b1 b2 : Byte) :
    wordBytes m b1 b2 = [opcodeOf m, b1] := by rw [wordBytes, h]; rfl

theorem wordBytes_of_ilen_three {m : Mnemonic} (h : ilen (opcodeOf m) = 3) (b1 b2 : Byte) :
    wordBytes m b1 b2 = [opcodeOf m, b1, b2] := by rw [wordBytes, h]; rfl

theorem encode_assemble (m : Mnemonic) (b1 b2 : Byte) : encode (assemble m b1 b2) = wordBytes m b1 b2 := by
  rw [wordBytes, ilen_opcodeOf]
  cases m <;> rfl

theorem assemble_operandBytes (i : Instr) :
    assemble (mnemonicOf i) ((operandBytes i).getD 0 0#8) ((operandBytes i).getD 1 0#8) = i := by cases i <;> rfl

theorem exists_assemble (i : Instr) : ∃ m b1 b2, i = assemble m b1 b2 := ⟨_, _, _, (assemble_operandBytes i).symm⟩

theorem present_assemble (aluExt : Bool) (m : Mnemonic) (b1 b2 : Byte) :
    (assemble m b1 b2).present aluExt = presentUnder aluExt m := by
  rw [← presentUnder_mnemonicOf, mnemonicOf_assemble]

theorem decodeOpcode_of_present {aluExt : Bool} {m : Mnemonic} (h : presentUnder aluExt m = true) :
    decodeOpcode aluExt (opcodeOf m) = some m := by rw [decodeOpcode_opcodeOf, if_pos h]

/-- The decoder reads a present row's bytes and no further. -/
theorem decode_wordBytes {aluExt : Bool} {m : Mnemonic} (h : presentUnder aluExt m = true) (b1 b2 : Byte)
    (rest : List Byte) : decode aluExt (wordBytes m b1 b2 ++ rest) = .instr (assemble m b1 b2) rest := by
  have hop := decodeOpcode_of_present h
  obtain hlen | hlen | hlen := ilen_opcodeOf_cases m
  · simp [wordBytes_of_ilen_one hlen, decode, hop, hlen, assemble_of_ilen_one hlen b1 b2 0#8 0#8]
  · simp [wordBytes_of_ilen_two hlen, decode, hop, hlen, assemble_of_ilen_two hlen b1 b2 0#8]
  · simp [wordBytes_of_ilen_three hlen, decode, hop, hlen]

/-- What decodes to an instruction begins with the bytes of a present row, from which the instruction is assembled. -/
theorem wordBytes_of_decode {aluExt : Bool} {bytes rest : List Byte} {i : Instr}
    (h : decode aluExt bytes = .instr i rest) :
    ∃ m b1 b2, presentUnder aluExt m = true ∧ i = assemble m b1 b2 ∧ bytes = wordBytes m b1 b2 ++ rest := by
  obtain _ | ⟨op, tail⟩ := bytes
  · simp [decode] at h
  obtain hop | ⟨m, hop⟩ := (decodeOpcode aluExt op).eq_none_or_eq_some
  · simp [decode, hop] at h
  obtain ⟨rfl, hpresent⟩ := decodeOpcode_some hop
  obtain hlen | hlen | hlen := ilen_opcodeOf_cases m
  · obtain ⟨rfl, rfl⟩ : assemble m 0#8 0#8 = i ∧ tail = rest := by simpa [decode, hop, hlen] using h
    exact ⟨m, 0#8, 0#8, hpresent, rfl, by rw [wordBytes_of_ilen_one hlen]; rfl⟩
  · obtain _ | ⟨b1, tail⟩ := tail
    · simp [decode, hop, hlen] at h
    obtain ⟨rfl, rfl⟩ : assemble m b1 0#8 = i ∧ tail = rest := by simpa [decode, hop, hlen] using h
    exact ⟨m, b1, 0#8, hpresent, rfl, by rw [wordBytes_of_ilen_two hlen]; rfl⟩
  · obtain _ | ⟨b1, _ | ⟨b2, tail⟩⟩ := tail
    · simp [decode, hop, hlen] at h
    · simp [decode, hop, hlen] at h
    obtain ⟨rfl, rfl⟩ : assemble m b1 b2 = i ∧ tail = rest := by simpa [decode, hop, hlen] using h
    exact ⟨m, b1, b2, hpresent, rfl, by rw [wordBytes_of_ilen_three hlen]; rfl⟩

/-- Settles O2: the instruction is assembled from a row, whose bytes the encoder writes (`encode_assemble`) and the
decoder reads back (`decode_wordBytes`). -/
theorem decodeOfEncode : Obligations.DecodeOfEncode := by
  intro aluExt i rest hpresent
  obtain ⟨m, b1, b2, rfl⟩ := exists_assemble i
  rw [present_assemble] at hpresent
  rw [encode_assemble, decode_wordBytes hpresent]

/-- Settles O3: the bytes the decoder read (`wordBytes_of_decode`) are the ones the encoder writes. -/
theorem encodeOfDecode : Obligations.EncodeOfDecode := by
  intro aluExt bytes i rest h
  obtain ⟨m, b1, b2, hpresent, rfl, rfl⟩ := wordBytes_of_decode h
  rw [encode_assemble, present_assemble]
  exact ⟨rfl, hpresent⟩

/-- Settles O1: each word is the encoding of its instruction, which is present, with no byte after it. -/
theorem specWordsDecode : Obligations.SpecWordsDecode :=
  ⟨decodeOfEncode false .hlt [] rfl, decodeOfEncode false .ret [] rfl, decodeOfEncode false (.push _) [] rfl,
    decodeOfEncode false (.pop _) [] rfl, decodeOfEncode false (.prn _) [] rfl, decodeOfEncode false (.call _) [] rfl,
    decodeOfEncode false (.jmp _) [] rfl, decodeOfEncode false (.jeq _) [] rfl, decodeOfEncode false (.jne _) [] rfl,
    decodeOfEncode false (.ldi _ _) [] rfl, decodeOfEncode false (.add _ _) [] rfl, decodeOfEncode true (.sub _ _) [] rfl,
    decodeOfEncode false (.mul _ _) [] rfl, decodeOfEncode false (.cmp _ _) [] rfl, decodeOfEncode true (.and _ _) [] rfl,
    decodeOfEncode true (.or _ _) [] rfl, decodeOfEncode true (.xor _ _) [] rfl⟩

end Sys2Proof.Machine
end

section
/-! Opcodes that decode to nothing (30_encoding.md R109, R110; 40_cycle.md R143). -/

namespace Sys2Proof.Machine

open Sys2Proof

/-- A step on an opcode byte that decodes to nothing takes `InvalidOpcode` (40_cycle.md R143, 60_exceptions.md R282). -/
theorem step_of_invalid_opcode {s : State} (hrun : s.engine = .running) (hpc : s.pc.toNat ≤ 255)
    (h : decodeOpcode s.aluExt (Memory.read s.mem s.pc.toNat) = none) :
    step s = .next (faulted s (some (Memory.read s.mem s.pc.toNat)) .invalidOpcode none
      ((Memory.read s.mem s.pc.toNat).setWidth 9)) := by
  have hfetch : fetch s =
      .raised (invalidOpcode (Memory.read s.mem s.pc.toNat)) (some (Memory.read s.mem s.pc.toNat)) := by
    rw [fetch_spec, if_neg (Nat.not_lt.mpr hpc), h]
  exact step_of_raised hrun hfetch

/-- An `ALU_EXT` row decodes where `ALU_EXT` is on, and nowhere else (30_encoding.md R109). -/
theorem decodeOpcode_of_aluExtOnly {m : Mnemonic} (h : (opcodeMap m).aluExtOnly = true) (aluExt : Bool) :
    decodeOpcode aluExt (opcodeOf m) = if aluExt then some m else none := by
  simp [decodeOpcode_opcodeOf, presentUnder, h]

/-- The rows R109 names. -/
def aluExtRows : List Mnemonic := [.sub, .and, .or, .xor]

theorem aluExtOnly_iff_mem_aluExtRows (m : Mnemonic) : (opcodeMap m).aluExtOnly = true ↔ m ∈ aluExtRows := by
  cases m <;> decide

theorem aluExtRows_opcodes : aluExtRows.map opcodeOf = [0xA1#8, 0xA8#8, 0xAA#8, 0xAB#8] := rfl

/-- Settles O6: the four bytes are the opcodes of the `ALU_EXT` rows, which decode only under `ALU_EXT`
(`decodeOpcode_of_aluExtOnly`), and a step on a byte that decodes to nothing takes the fault. -/
theorem aluExtRowsGated : Obligations.AluExtRowsGated := by
  refine ⟨decodeOpcode_of_aluExtOnly (m := .sub) rfl true, decodeOpcode_of_aluExtOnly (m := .and) rfl true,
    decodeOpcode_of_aluExtOnly (m := .or) rfl true, decodeOpcode_of_aluExtOnly (m := .xor) rfl true, fun op hop => ?_⟩
  rw [← aluExtRows_opcodes] at hop
  obtain ⟨m, hm, rfl⟩ := List.mem_map.mp hop
  have hoff := decodeOpcode_of_aluExtOnly ((aluExtOnly_iff_mem_aluExtRows m).mpr hm) false
  refine ⟨hoff, fun s hext hrun hpc hread => ?_⟩
  rw [← hread] at hoff ⊢
  exact step_of_invalid_opcode hrun hpc (hext ▸ hoff)

end Sys2Proof.Machine
end

section
/-! The cycle (40_cycle.md): the fetch and its faults, the instruction a Running step executes, the next `pc`, and the
core that has ended. -/

namespace Sys2Proof.Machine

open Sys2Proof

/-! ## How many opcodes are illegal -/

theorem decodeOpcode_isSome_iff {aluExt : Bool} {op : Byte} :
    (decodeOpcode aluExt op).isSome = true ↔ ∃ m, presentUnder aluExt m = true ∧ opcodeOf m = op := by
  constructor
  · intro h
    obtain ⟨m, hm⟩ := Option.isSome_iff_exists.mp h
    obtain ⟨hop, hpresent⟩ := decodeOpcode_some hm
    exact ⟨m, hpresent, hop⟩
  · rintro ⟨m, hpresent, rfl⟩
    rw [decodeOpcode_of_present hpresent, Option.isSome_some]

/-- The bytes that decode are the opcodes of the present rows, in some order. -/
theorem legalOpcodes_perm (aluExt : Bool) :
    ((List.range 256).filter fun n => (decodeOpcode aluExt (BitVec.ofNat 8 n)).isSome).Perm
      ((allMnemonics.filter (presentUnder aluExt)).map fun m => (opcodeOf m).toNat) := by
  have hrows : allMnemonics.Nodup := by decide
  refine (List.perm_ext_iff_of_nodup (List.nodup_range.filter _)
    ((hrows.filter _).map fun m n h => opcodeOf_injective (BitVec.eq_of_toNat_eq h))).mpr fun n => ?_
  simp only [List.mem_filter, List.mem_range, List.mem_map, decodeOpcode_isSome_iff, mem_allMnemonics, true_and]
  constructor
  · rintro ⟨hn, m, hpresent, hop⟩
    exact ⟨m, hpresent, by rw [hop, BitVec.toNat_ofNat, Nat.mod_eq_of_lt hn]⟩
  · rintro ⟨m, hpresent, rfl⟩
    exact ⟨(opcodeOf m).isLt, m, hpresent, by simp⟩

/-- Every byte but one for each present row is illegal (30_encoding.md R111). -/
theorem illegalOpcodes_count (aluExt : Bool) :
    ((List.range 256).countP fun n => (decodeOpcode aluExt (BitVec.ofNat 8 n)).isNone) =
      256 - (allMnemonics.filter (presentUnder aluExt)).length := by
  have hlegal := (legalOpcodes_perm aluExt).length_eq
  rw [← List.countP_eq_length_filter, List.length_map] at hlegal
  have hall := List.length_eq_countP_add_countP
    (fun n => (decodeOpcode aluExt (BitVec.ofNat 8 n)).isSome) (l := List.range 256)
  simp only [List.length_range, Bool.not_eq_true, Option.isSome_eq_false_iff, Bool.decide_eq_true] at hall
  omega

/-- Settles O4: 13 rows are present without `ALU_EXT` and 17 with it, and no other byte decodes; the fault is
`step_of_invalid_opcode`. -/
theorem illegalOpcodesFault : Obligations.IllegalOpcodesFault :=
  ⟨illegalOpcodes_count false, illegalOpcodes_count true, fun _ hrun hpc h => step_of_invalid_opcode hrun hpc h⟩

/-! ## The operand fetch -/

/-- Where the instruction fits in memory it is fetched, with the two bytes after its opcode. -/
theorem fetch_of_fits {s : State} {m : Mnemonic}
    (hdecode : decodeOpcode s.aluExt (Memory.read s.mem s.pc.toNat) = some m)
    (hfits : s.pc.toNat + ilen (Memory.read s.mem s.pc.toNat) ≤ 256) :
    fetch s = .instr (assemble m (Memory.read s.mem (s.pc.toNat + 1)) (Memory.read s.mem (s.pc.toNat + 2))) := by
  have hlen : 1 ≤ ilen (Memory.read s.mem s.pc.toNat) := Nat.le_add_left ..
  simp only [fetch_spec, hdecode]
  rw [if_neg (by omega), if_neg (by omega)]

/-- A row's instruction depends only on the operand bytes that its length reaches (30_encoding.md R103). -/
theorem assemble_congr {m : Mnemonic} {a b c d : Byte} (h1 : 2 ≤ ilen (opcodeOf m) → a = c)
    (h2 : 3 ≤ ilen (opcodeOf m) → b = d) : assemble m a b = assemble m c d := by
  obtain hlen | hlen | hlen := ilen_opcodeOf_cases m
  · exact assemble_of_ilen_one hlen ..
  · rw [h1 hlen.ge, assemble_of_ilen_two hlen]
  · rw [h1 (by omega), h2 hlen.ge]

/-- Settles O9: past the last address the fetch raises the fault; otherwise `fetch_of_fits` gives the instruction, which
is the same for every choice of the bytes it does not have. -/
theorem operandFetchGuarded : Obligations.OperandFetchGuarded := by
  intro s m hrun hpc hdecode
  refine ⟨fun hpast => ?_, fun hfits b1 b2 h1 h2 => ?_⟩
  · have hfetch : fetch s = .raised (outOfRange .fetch 256) (some (Memory.read s.mem s.pc.toNat)) := by
      simp only [fetch_spec, hdecode]
      rw [if_neg (Nat.not_lt.mpr hpc), if_pos hpast]
    exact step_of_raised hrun hfetch
  · rw [step_of_fetched hrun (fetch_of_fits hdecode hfits)]
    rw [← (decodeOpcode_some hdecode).1] at h1 h2
    rw [assemble_congr h1 h2]

/-! ## The instruction a step executes -/

theorem length_bytesFrom (mem : Memory) (a n : Nat) : (bytesFrom mem a n).length = n := by
  induction n generalizing a with
  | zero => rfl
  | succ n ih => rw [bytesFrom, List.length_cons, ih]

/-- What the decoder reads from the state's code is what the step fetches (40_cycle.md R145). -/
theorem fetch_of_decode_codeBytes {s : State} {i : Instr} {rest : List Byte}
    (h : decode s.aluExt (codeBytes s) = .instr i rest) : fetch s = .instr i := by
  obtain ⟨m, b1, b2, hpresent, -, hbytes⟩ := wordBytes_of_decode h
  have hlen : memSize - s.pc.toNat = ilen (opcodeOf m) + rest.length := by
    rw [← length_bytesFrom s.mem s.pc.toNat (memSize - s.pc.toNat), ← codeBytes, hbytes, List.length_append,
      ← encode_assemble, encode_length, mnemonicOf_assemble]
  have hpos : 1 ≤ ilen (opcodeOf m) := Nat.le_add_left ..
  simp only [memSize] at hlen
  have hop : Memory.read s.mem s.pc.toNat = opcodeOf m := by
    have hhead := head?_codeBytes (s := s) (by simp only [memSize]; omega)
    rw [hbytes, ← encode_assemble, encode, mnemonicOf_assemble] at hhead
    exact (Option.some.inj hhead).symm
  have hfetch := fetch_of_fits (hop ▸ decodeOpcode_of_present hpresent) (by rw [hop]; omega)
  obtain ⟨rest', hj⟩ := decode_codeBytes hfetch
  obtain ⟨rfl, -⟩ := Decoded.instr.inj (hj.symm.trans h)
  exact hfetch

/-- Settles O7: the decoded instruction is the one fetched. -/
theorem stepRunsDecodedInstruction : Obligations.StepRunsDecodedInstruction :=
  fun _ _ _ hrun h => step_of_fetched hrun (fetch_of_decode_codeBytes h)

/-! ## The next pc -/

/-- Settles O36: an instruction that does not fault has its effect, whose `pc` is the multiplexer's (`effect_pc`). -/
theorem nextPcSelected : Obligations.NextPcSelected := by
  intro i s t _ h hok
  obtain ⟨r, -, rfl⟩ | ⟨hraised, rfl⟩ := exec_cases h
  · exact absurd rfl hok
  · exact effect_pc hraised

/-- The multiplexer gives the sum of `SEQ`, or else a byte. -/
theorem nextPc_cases (i : Instr) (s : State) : nextPc i s = seqPc i s ∨ ∃ v : Byte, nextPc i s = zext9 v := by
  cases i with
  | jmp r => exact .inr ⟨_, rfl⟩
  | call r => exact .inr ⟨_, rfl⟩
  | ret => exact .inr ⟨_, rfl⟩
  | jeq r =>
    by_cases hE : s.fl.getLsbD 0 = true
    · exact .inr ⟨_, if_pos hE⟩
    · exact .inl (if_neg hE)
  | jne r =>
    by_cases hE : s.fl.getLsbD 0 = false
    · exact .inr ⟨_, if_pos hE⟩
    · exact .inl (if_neg hE)
  | _ => exact .inl rfl

/-- A fetched instruction goes on to an address of memory, or to 256 (10_state.md R43). -/
theorem nextPc_le {s : State} {i : Instr} (h : fetch s = .instr i) : (nextPc i s).toNat ≤ 256 := by
  obtain hseq | ⟨v, hbyte⟩ := nextPc_cases i s
  · have hfits := fetch_instr_fits h
    rwa [hseq, seqPc_toNat hfits]
  · rw [hbyte, zext9, BitVec.toNat_setWidth_of_le (by decide)]
    exact v.isLt.le

theorem step_pcLegal {s t : State} (h : PcLegal s) (hstep : step s = .next t) : PcLegal t := by
  obtain ⟨-, rfl⟩ | ⟨r, op, -, -, rfl⟩ | ⟨i, -, hfetch, hexec⟩ := step_cases hstep
  · exact h
  · exact h
  · obtain ⟨r, -, rfl⟩ | ⟨hraised, rfl⟩ := exec_cases hexec
    · exact h
    · rw [PcLegal, effect_pc hraised]
      exact nextPc_le hfetch

/-! ## The opcode fetch -/

/-- A fetch above 255 has no opcode (40_cycle.md R142). -/
theorem step_past_memory {s : State} (hrun : s.engine = .running) (h : 255 < s.pc.toNat) :
    step s = .next (faulted s none .outOfRange (some .fetch) s.pc) := by
  have hfetch : fetch s = .raised (outOfRange .fetch s.pc.toNat) none := by rw [fetch_spec, if_pos h]
  rw [step_of_raised hrun hfetch, takeFault, outOfRange, BitVec.ofNat_toNat, BitVec.setWidth_eq, faulted]

/-- Settles O8: the fault is `step_past_memory`, and no step takes `pc` above 256 (`step_pcLegal`). -/
theorem opcodeFetchFault : Obligations.OpcodeFetchFault := by
  refine ⟨fun s hrun h => step_past_memory hrun h, fun s hrun h => ?_, Nat.zero_le _, fun s t => step_pcLegal⟩
  rw [step_at_end hrun h, faulted, h]

/-! ## The core that has ended, and every other -/

theorem step_of_ended {s : State} (h : Ended s) : step s = .next s :=
  step_ended fun hrun => by simp [Ended, hrun] at h

/-- A machine whose step answers the same state stays in it. -/
theorem run_of_step_self {M : Host.Core} {s : M.State} (h : M.step s = .next s) (n : Nat) : M.run n s = .next s := by
  induction n with
  | zero => rfl
  | succ n ih => simp only [Host.Core.run, h, ih]

/-- Settles O10, by induction on the number of steps. -/
theorem endedCoreHasNoStep : Obligations.EndedCoreHasNoStep := fun _ n h => 
  have hstep := step_of_ended h
  ⟨hstep, run_of_step_self (M := core) hstep n⟩

theorem exec_next (i : Instr) (s : State) : ∃ t, exec i s = .next t := by
  cases h : raised i s with
  | none => exact ⟨_, exec_of_completes h⟩
  | some r => exact ⟨_, exec_of_raised h⟩

theorem step_next (s : State) : ∃ t, step s = .next t := by
  by_cases hrun : s.engine = .running
  · cases h : fetch s with
    | raised r op => exact ⟨_, step_of_raised hrun h⟩
    | instr i =>
      rw [step_of_fetched hrun h]
      exact exec_next i s
  · exact ⟨s, step_ended hrun⟩

/-- Settles O12: an instruction ends with a fault taken or with its effect, and a step is a fault in its fetch, an
instruction, or nothing at all. -/
theorem stepAnswersNext : Obligations.StepAnswersNext := ⟨step_next, exec_next⟩

end Sys2Proof.Machine
end

section
/-! The clauses that the rules of several instructions share: completion with valid operands, `OutOfRange(REGISTER)`,
and `OutOfRange(FETCH)` for an operand byte past the last address. -/

namespace Sys2Proof.Machine

open Sys2Proof

/-- A present instruction with valid operands raises nothing but what the stack checks raise (60_exceptions.md R292). -/
theorem raised_of_operands_lt {i : Instr} {s : State} (hpresent : i.present s.aluExt = true)
    (hoperands : ∀ r ∈ i.regOperands, r.toNat < 8) : raised i s = stackRaise i s := by
  rw [raised, if_pos hpresent, operandRaise_eq_none.mpr hoperands, Option.none_or]

/-- A first operand byte of 8 or more is refused before anything else is checked (60_exceptions.md R292). -/
theorem raised_of_invalid_operand {i : Instr} {s : State} {r : Byte} {rest : List Byte}
    (hpresent : i.present s.aluExt = true) (hoperands : i.regOperands = r :: rest) (hr : 8 ≤ r.toNat) :
    raised i s = some (outOfRange .register r.toNat) := by
  rw [raised, if_pos hpresent, hoperands, operandRaise_invalid hr, Option.some_or]

/-- The record of an operand byte holds the byte itself (60_exceptions.md R281). -/
theorem takeFault_outOfRange_byte (kind : FaultKind) (b : Byte) (opcode : Option Byte) (s : State) :
    takeFault (outOfRange kind b.toNat) opcode s = faulted s opcode .outOfRange (some kind) (b.setWidth 9) := by
  rw [takeFault, outOfRange, BitVec.ofNat_toNat, faulted]

/-- A one-register instruction that is present in every configuration checks its register first of all. -/
theorem badRegisterFaults {mk : Byte → Instr} {op : Byte} (hpresent : ∀ e r, (mk r).present e = true)
    (hoperands : ∀ r, (mk r).regOperands = [r]) (hop : ∀ r, opcodeOf (mnemonicOf (mk r)) = op) :
    BadRegisterFaults mk op := by
  intro s r hr
  have hraised := raised_of_invalid_operand (hpresent s.aluExt r) (hoperands r) hr
  rw [exec_of_raised hraised, hop, takeFault_outOfRange_byte]

/-- Every opcode that decodes fetches all the operand bytes its length counts (40_cycle.md R144). -/
theorem operandFetchFaults (op : Byte) : OperandFetchFaults op (ilen op) := by
  intro s hrun hpc hread hdecodes hpast
  subst hread
  obtain ⟨m, hm⟩ := Option.isSome_iff_exists.mp hdecodes
  exact (operandFetchGuarded s m hrun hpc hm).1 hpast

/-- The register an operand byte below 8 names, read by its number. -/
theorem readReg_regIndex_of_lt (s : State) {b : Byte} (h : b.toNat < 8) : readReg s (regIndex b) = s.x[b.toNat] := by
  rw [readReg_regIndex s h, regAt_of_lt s.x h]

end Sys2Proof.Machine
end

section
/-! Load-immediate, output and halt (41_data_io.md). -/

namespace Sys2Proof.Machine

open Sys2Proof

/-! ## LDI -/

theorem raised_ldi {r : Byte} (hr : r.toNat < 8) (v : Byte) (s : State) : raised (.ldi r v) s = none :=
  raised_of_operands_lt rfl (List.forall_mem_singleton.mpr hr)

theorem effect_ldi {r : Byte} (hr : r.toNat < 8) (v : Byte) (s : State) :
    effect (.ldi r v) s = { s with x := s.x.set r.toNat v, pc := s.pc + 3#9 } := by
  rw [effect, regIndex_of_lt hr]
  rfl

/-- Settles O13: with a valid register LDI raises nothing and has the effect of `effect_ldi`; the two faults are the
shared ones. -/
theorem ldiRule : Obligations.LdiRule := by
  refine ⟨fun _ _ => rfl, fun s reg imm h => ?_, fun imm => ?_, operandFetchFaults 0x82#8⟩
  · rw [exec_of_completes (raised_ldi h imm s), effect_ldi h]
  · exact badRegisterFaults (fun _ _ => rfl) (fun _ => rfl) (fun _ => rfl)

/-! ## PRN -/

theorem raised_prn {r : Byte} (hr : r.toNat < 8) (s : State) : raised (.prn r) s = none :=
  raised_of_operands_lt rfl (List.forall_mem_singleton.mpr hr)

theorem effect_prn {r : Byte} (hr : r.toNat < 8) (s : State) :
    effect (.prn r) s = { s with outq := s.outq ++ [s.x[r.toNat]], pc := s.pc + 2#9 } := by
  rw [effect, readReg_regIndex_of_lt s hr]
  rfl

/-- The host renders the values one by one (10_state.md R58). -/
theorem renderOutput_append (q q' : List Byte) : renderOutput (q ++ q') = renderOutput q ++ renderOutput q' :=
  List.map_append

/-- Settles O14: as LDI, with the effect of `effect_prn`; the rendering of the longer output is `renderOutput_append`. -/
theorem prnRule : Obligations.PrnRule := by
  refine ⟨fun _ => rfl, fun s reg h => ?_, ?_, operandFetchFaults 0x47#8, fun s v => renderOutput_append s.outq [v]⟩
  · rw [exec_of_completes (raised_prn h s), effect_prn h]
  · exact badRegisterFaults (fun _ _ => rfl) (fun _ => rfl) (fun _ => rfl)

/-! ## HLT -/

theorem raised_hlt (s : State) : raised .hlt s = none := raised_of_operands_lt rfl (List.forall_mem_nil _)

theorem effect_hlt (s : State) : effect .hlt s = { s with engine := .halted, pc := s.pc + 1#9 } := rfl

theorem exec_hlt (s : State) : exec .hlt s = .next { s with engine := .halted, pc := s.pc + 1#9 } := by
  rw [exec_of_completes (raised_hlt s), effect_hlt]

/-- HLT is one byte, so it is fetched at every address of memory, the last one included (40_cycle.md R144). -/
theorem fetch_hlt {s : State} (hpc : s.pc.toNat ≤ 255) (hread : Memory.read s.mem s.pc.toNat = opcodeOf .hlt) :
    fetch s = .instr .hlt := by
  have hdecode : decodeOpcode s.aluExt (Memory.read s.mem s.pc.toNat) = some .hlt := by
    rw [hread]
    exact decodeOpcode_of_present rfl
  have hlen : ilen (Memory.read s.mem s.pc.toNat) = 1 := by
    rw [hread]
    rfl
  exact fetch_of_fits hdecode (by omega)

/-- Settles O15: a Running step fetches HLT and executes it, and the Halted state it leaves has no step. -/
theorem hltRule : Obligations.HltRule := by
  refine ⟨rfl, exec_hlt, fun s hrun hpc hread => ⟨_, rfl, ?_, step_of_ended (.inl rfl)⟩⟩
  have hsum : BitVec.ofNat 9 (s.pc.toNat + 1) = s.pc + 1#9 := by
    rw [BitVec.ofNat_add, BitVec.ofNat_toNat, BitVec.setWidth_eq]
  rw [step_of_fetched hrun (fetch_hlt hpc hread), exec_hlt, hsum]

end Sys2Proof.Machine
end

section
/-! The ALU operations in integers (42_alu.md R191), and the register-register instructions (42_alu.md section 2): an
instruction is named by the operation it selects, and each rule is proved once for all the operations. -/

namespace Sys2Proof.Machine

open Sys2Proof

/-! ## The operations -/

theorem byte_eq_ofNat {v : Byte} {n : Nat} (h : v.toNat = n) : v = BitVec.ofNat 8 n := by
  rw [← h, BitVec.ofNat_toNat, BitVec.setWidth_eq]

theorem alu_add (a b : Byte) : alu .add a b = .res (BitVec.ofNat 8 ((a.toNat + b.toNat) % 256)) :=
  congrArg AluOut.res (byte_eq_ofNat (BitVec.toNat_add a b))

theorem alu_sub (a b : Byte) : alu .sub a b = .res (BitVec.ofNat 8 ((a.toNat + 256 - b.toNat) % 256)) := by
  have hdifference : 2 ^ 8 - b.toNat + a.toNat = a.toNat + 256 - b.toNat := by omega
  have hvalue : (a - b).toNat = (a.toNat + 256 - b.toNat) % 256 := by rw [BitVec.toNat_sub, hdifference]
  exact congrArg AluOut.res (byte_eq_ofNat hvalue)

theorem alu_mul (a b : Byte) : alu .mul a b = .res (BitVec.ofNat 8 ((a.toNat * b.toNat) % 256)) :=
  congrArg AluOut.res (byte_eq_ofNat (BitVec.toNat_mul a b))

theorem compareFlags_of_lt {a b : Byte} (h : a.toNat < b.toNat) : compareFlags a b = 0b100#8 := if_pos h

theorem compareFlags_of_gt {a b : Byte} (h : a.toNat > b.toNat) : compareFlags a b = 0b010#8 := by
  rw [compareFlags, if_neg h.le.not_gt, if_pos h]

theorem compareFlags_self (a : Byte) : compareFlags a a = 0b001#8 := by
  rw [compareFlags, if_neg (lt_irrefl _), if_neg (lt_irrefl _)]

/-- Settles O16: the sums, differences and products are reduced by `BitVec`'s own arithmetic, the logic operations act on
each bit, and the comparison is `compareFlags`. -/
theorem aluOperations : Obligations.AluOperations := fun a b =>
  ⟨alu_add a b, alu_sub a b, alu_mul a b,
    fun _ _ => ⟨BitVec.getLsbD_and, BitVec.getLsbD_or, BitVec.getLsbD_xor⟩, rfl, rfl, rfl,
    fun h => congrArg AluOut.fl (compareFlags_of_lt h), fun h => congrArg AluOut.fl (compareFlags_of_gt h),
    fun h => congrArg AluOut.fl (h ▸ compareFlags_self a)⟩

/-! ## The instruction of an operation -/

/-- The row that selects an ALU operation (42_alu.md section 2). -/
def aluRow : AluOp → Mnemonic
  | .add => .add
  | .sub => .sub
  | .mul => .mul
  | .and => .and
  | .or => .or
  | .xor => .xor
  | .cmp => .cmp

/-- The instruction that selects an ALU operation. -/
def aluInstr (f : AluOp) (a b : Byte) : Instr := assemble (aluRow f) a b

theorem mnemonicOf_aluInstr (f : AluOp) (a b : Byte) : mnemonicOf (aluInstr f a b) = aluRow f := mnemonicOf_assemble ..

theorem present_aluInstr (aluExt : Bool) (f : AluOp) (a b : Byte) :
    (aluInstr f a b).present aluExt = presentUnder aluExt (aluRow f) := present_assemble ..

theorem regOperands_aluInstr (f : AluOp) (a b : Byte) : (aluInstr f a b).regOperands = [a, b] := by cases f <;> rfl

theorem stackRaise_aluInstr (f : AluOp) (a b : Byte) (s : State) : stackRaise (aluInstr f a b) s = none := by
  cases f <;> rfl

theorem effect_aluInstr (f : AluOp) (a b : Byte) (s : State) :
    effect (aluInstr f a b) s = aluEffect (aluRow f) f a b s := by cases f <;> rfl

theorem ilen_aluRow (f : AluOp) : ilen (opcodeOf (aluRow f)) = 3 := by cases f <;> rfl

theorem encode_aluInstr (f : AluOp) (a b : Byte) : encode (aluInstr f a b) = [opcodeOf (aluRow f), a, b] := by
  rw [aluInstr, encode_assemble, wordBytes_of_ilen_three (ilen_aluRow f)]

theorem advance_aluRow (f : AluOp) (s : State) : advance (aluRow f) s = { s with pc := s.pc + 3#9 } := by
  rw [advance, ilen_aluRow]

theorem operandFetchFaults_aluRow (f : AluOp) : OperandFetchFaults (opcodeOf (aluRow f)) 3 :=
  ilen_aluRow f ▸ operandFetchFaults (opcodeOf (aluRow f))

theorem presentUnder_of_always {m : Mnemonic} (h : (opcodeMap m).aluExtOnly = false) (aluExt : Bool) :
    presentUnder aluExt m = true := by simp [presentUnder, h]

theorem presentUnder_of_aluExtOnly {m : Mnemonic} (h : (opcodeMap m).aluExtOnly = true) (aluExt : Bool) :
    presentUnder aluExt m = aluExt := by simp [presentUnder, h]

/-! ## What it does where its row is present -/

/-- A present ALU instruction makes the register check and no other (60_exceptions.md R292). -/
theorem raised_aluInstr {f : AluOp} {s : State} (hpresent : presentUnder s.aluExt (aluRow f) = true) (a b : Byte) :
    raised (aluInstr f a b) s = operandRaise [a, b] := by
  rw [raised, if_pos ((present_aluInstr ..).trans hpresent), regOperands_aluInstr, stackRaise_aluInstr, Option.or_none]

/-- With valid operands the ALU's output is written to `regA` or to FL, both sources read before it (42_alu.md R190). -/
theorem exec_aluInstr {f : AluOp} {s : State} (hpresent : presentUnder s.aluExt (aluRow f) = true) {a b : Byte}
    (ha : a.toNat < 8) (hb : b.toNat < 8) :
    exec (aluInstr f a b) s =
      .next (advance (aluRow f) (writeAluOut ⟨a.toNat, ha⟩ (alu f s.x[a.toNat] s.x[b.toNat]) s)) := by
  have hraised : raised (aluInstr f a b) s = none := by
    rw [raised_aluInstr hpresent, operandRaise_valid ha, operandRaise_valid hb, operandRaise_nil]
  rw [exec_of_completes hraised, effect_aluInstr, aluEffect, readReg_regIndex_of_lt s ha, readReg_regIndex_of_lt s hb,
    regIndex_of_lt ha]

theorem registerResult_aluInstr {f : AluOp} {g : Byte → Byte → Byte} (hresult : ∀ u v, alu f u v = .res (g u v))
    {s : State} (hpresent : presentUnder s.aluExt (aluRow f) = true) : RegisterResult (aluInstr f) g s := by
  intro a b ha hb
  rw [exec_aluInstr hpresent ha hb, hresult, advance_aluRow]
  rfl

/-- A bad `regA` is found first; a bad `regB` is found where `regA` is valid (42_alu.md section 2). -/
theorem badRegistersFault_aluInstr {f : AluOp} {s : State} (hpresent : presentUnder s.aluExt (aluRow f) = true) :
    BadRegistersFault (aluInstr f) (opcodeOf (aluRow f)) s := by
  refine fun a b => ⟨fun ha => ?_, fun ha hb => ?_⟩
  · have hraised := (raised_aluInstr hpresent a b).trans (operandRaise_invalid ha [b])
    rw [exec_of_raised hraised, mnemonicOf_aluInstr, takeFault_outOfRange_byte]
  · have hraised := (raised_aluInstr hpresent a b).trans ((operandRaise_valid ha [b]).trans (operandRaise_invalid hb []))
    rw [exec_of_raised hraised, mnemonicOf_aluInstr, takeFault_outOfRange_byte]

/-! ## Where its row is absent -/

theorem raised_of_absent {i : Instr} {s : State} (h : i.present s.aluExt = false) :
    raised i s = some (invalidOpcode (opcodeOf (mnemonicOf i))) := by
  rw [raised, h, if_neg Bool.false_ne_true]

theorem absentFaults_aluInstr {f : AluOp} (h : (opcodeMap (aluRow f)).aluExtOnly = true) :
    AbsentFaults (aluInstr f) (opcodeOf (aluRow f)) := by
  intro s a b hoff
  have habsent : (aluInstr f a b).present s.aluExt = false := by
    rw [present_aluInstr, presentUnder_of_aluExtOnly h, hoff]
  rw [exec_of_raised (raised_of_absent habsent), mnemonicOf_aluInstr]
  rfl

/-! ## The rules -/

/-- The rule of an operation whose row is always present and whose result goes to a register. -/
theorem aluInstr_rule {f : AluOp} {g : Byte → Byte → Byte} (halways : (opcodeMap (aluRow f)).aluExtOnly = false)
    (hresult : ∀ u v, alu f u v = .res (g u v)) :
    (∀ a b, encode (aluInstr f a b) = [opcodeOf (aluRow f), a, b]) ∧
    (∀ s, RegisterResult (aluInstr f) g s ∧ BadRegistersFault (aluInstr f) (opcodeOf (aluRow f)) s) ∧
    OperandFetchFaults (opcodeOf (aluRow f)) 3 := by
  refine ⟨encode_aluInstr f, fun s => ?_, operandFetchFaults_aluRow f⟩
  have hpresent := presentUnder_of_always halways s.aluExt
  exact ⟨registerResult_aluInstr hresult hpresent, badRegistersFault_aluInstr hpresent⟩

/-- The rule of an operation of the `ALU_EXT` group, whose row is present where `ALU_EXT` is on (30_encoding.md R109). -/
theorem aluInstr_ext_rule {f : AluOp} {g : Byte → Byte → Byte} (hext : (opcodeMap (aluRow f)).aluExtOnly = true)
    (hresult : ∀ u v, alu f u v = .res (g u v)) :
    (∀ a b, encode (aluInstr f a b) = [opcodeOf (aluRow f), a, b]) ∧
    (∀ s : State, s.aluExt = true →
      RegisterResult (aluInstr f) g s ∧ BadRegistersFault (aluInstr f) (opcodeOf (aluRow f)) s) ∧
    AbsentFaults (aluInstr f) (opcodeOf (aluRow f)) ∧
    OperandFetchFaults (opcodeOf (aluRow f)) 3 := by
  refine ⟨encode_aluInstr f, fun s hon => ?_, absentFaults_aluInstr hext, operandFetchFaults_aluRow f⟩
  have hpresent := (presentUnder_of_aluExtOnly hext s.aluExt).trans hon
  exact ⟨registerResult_aluInstr hresult hpresent, badRegistersFault_aluInstr hpresent⟩

/-- Settles O17: ADD is always present, and its result is `alu_add`'s. -/
theorem addRule : Obligations.AddRule := aluInstr_rule (f := .add) rfl alu_add

/-- Settles O18: MUL is always present, and its result is `alu_mul`'s. -/
theorem mulRule : Obligations.MulRule := aluInstr_rule (f := .mul) rfl alu_mul

/-- Settles O19: the output of CMP is `compareFlags` of the two registers, and it goes to FL. -/
theorem cmpRule : Obligations.CmpRule := by
  have hpresent (s : State) : presentUnder s.aluExt (aluRow .cmp) = true := presentUnder_of_always rfl s.aluExt
  refine ⟨encode_aluInstr .cmp, fun s a b ha hb => ?_, fun s => badRegistersFault_aluInstr (hpresent s),
    operandFetchFaults_aluRow .cmp⟩
  exact exec_aluInstr (hpresent s) ha hb

/-- Settles O20: SUB belongs to the `ALU_EXT` group, and its result is `alu_sub`'s. -/
theorem subRule : Obligations.SubRule := aluInstr_ext_rule (f := .sub) rfl alu_sub

/-- Settles O21: AND belongs to the `ALU_EXT` group, and the ALU answers the bitwise and. -/
theorem andRule : Obligations.AndRule := aluInstr_ext_rule (f := .and) rfl fun _ _ => rfl

/-- Settles O22: OR belongs to the `ALU_EXT` group, and the ALU answers the bitwise or. -/
theorem orRule : Obligations.OrRule := aluInstr_ext_rule (f := .or) rfl fun _ _ => rfl

/-- Settles O23: XOR belongs to the `ALU_EXT` group, and the ALU answers the bitwise exclusive or. -/
theorem xorRule : Obligations.XorRule := aluInstr_ext_rule (f := .xor) rfl fun _ _ => rfl

end Sys2Proof.Machine
end

section
/-! The stack (43_stack.md): the slot a push fills and a pop reads, the two bounds, and PUSH and POP. -/

namespace Sys2Proof.Machine

open Sys2Proof

/-! ## The bounds -/

theorem overflowRaise_eq_none {s : State} : overflowRaise s = none ↔ s.sp ≠ 0#8 := by simp [overflowRaise]

theorem overflowRaise_of_zero {s : State} (h : s.x[7] = 0#8) : overflowRaise s = some (stackOverflow 0#8) := by
  rw [← sp_eq] at h
  rw [overflowRaise, if_pos h, h]

theorem underflowRaise_eq_none {s : State} : underflowRaise s = none ↔ s.sp ≠ 255#8 := by simp [underflowRaise]

theorem underflowRaise_of_last {s : State} (h : s.x[7] = 255#8) :
    underflowRaise s = some (stackUnderflow 255#8) := by
  rw [← sp_eq] at h
  rw [underflowRaise, if_pos h, h]

/-- An instruction that raises nothing has passed its stack checks. -/
theorem stackRaise_of_raised {i : Instr} {s : State} (h : raised i s = none) : stackRaise i s = none := by
  simp only [raised] at h
  split at h
  · exact (Option.or_eq_none_iff.mp h).2
  · cases h

/-- The record of a full stack (60_exceptions.md R283). -/
theorem exec_of_stackOverflow {i : Instr} {s : State} (h : raised i s = some (stackOverflow 0#8)) :
    exec i s = .next (faulted s (some (opcodeOf (mnemonicOf i))) .stackOverflow none 0#9) := exec_of_raised h

/-- The record of an empty stack (60_exceptions.md R284). -/
theorem exec_of_stackUnderflow {i : Instr} {s : State} (h : raised i s = some (stackUnderflow 255#8)) :
    exec i s = .next (faulted s (some (opcodeOf (mnemonicOf i))) .stackUnderflow none 255#9) := exec_of_raised h

/-! ## A pop after a push -/

theorem sp_pushed (v : Byte) (s : State) : (pushed v s).sp = s.sp - 1#8 := sp_writeReg_spIndex ..

/-- A push that had room leaves an item to pop. -/
theorem sp_pushed_ne_last {s : State} (h : s.sp ≠ 0#8) (v : Byte) : (pushed v s).sp ≠ 255#8 := by
  rw [sp_pushed]
  bv_omega

/-- Decrementing and then incrementing SP leaves every register as it was. -/
theorem popped_pushed_x (v : Byte) (s : State) : (popped (pushed v s)).x = s.x := by
  have hsp : (pushed v s).sp + 1#8 = s.x[7] := by rw [sp_pushed, BitVec.sub_add_cancel, sp_eq]
  rw [popped, hsp]
  simp [pushed, spIndex]

/-- The popped slot is the one the push filled (43_stack.md R230). -/
theorem poppedByte_pushed {s : State} (hmem : Memory.wf s.mem = true) (v : Byte) : poppedByte (pushed v s) = v := by
  rw [poppedByte, sp_pushed, BitVec.sub_add_cancel, pushed, writeReg_mem, read_write hmem, if_pos rfl]

/-- Below SP 255 the popped slot is the next address up. -/
theorem poppedByte_of_item {s : State} (h : s.x[7] ≠ 255#8) :
    poppedByte s = Memory.read s.mem (s.x[7].toNat + 1) := by
  have hslot : (s.x[7] + 1#8).toNat = s.x[7].toNat + 1 := by bv_omega
  rw [poppedByte, sp_eq, hslot]

/-! ## PUSH -/

theorem raised_push_of_full {r : Byte} {s : State} (hr : r.toNat < 8) (hsp : s.x[7] = 0#8) :
    raised (.push r) s = some (stackOverflow 0#8) := by
  have hchecks : raised (.push r) s = overflowRaise s :=
    raised_of_operands_lt rfl (List.forall_mem_singleton.mpr hr)
  rw [hchecks, overflowRaise_of_zero hsp]

theorem effect_push {r : Byte} (hr : r.toNat < 8) (s : State) :
    effect (.push r) s = { s with
      mem := Memory.write s.mem s.x[7].toNat s.x[r.toNat]
      x := s.x.set 7 (s.x[7] - 1#8)
      pc := s.pc + 2#9 } := by
  rw [effect, readReg_regIndex_of_lt s hr]
  rfl

/-- Settles O24: with room PUSH raises nothing and has the effect of `effect_push`, and at SP 0 its check finds the
stack full; the other two faults are the shared ones. -/
theorem pushRule : Obligations.PushRule := by
  refine ⟨fun _ => rfl, fun s reg hr hsp => ?_, ?_, fun s reg hr hsp => ?_, operandFetchFaults 0x45#8⟩
  · rw [exec_of_completes (raised_push hr hsp), effect_push hr]
  · exact badRegisterFaults (fun _ _ => rfl) (fun _ => rfl) (fun _ => rfl)
  · exact exec_of_stackOverflow (raised_push_of_full hr hsp)

/-! ## POP -/

theorem raised_pop {r : Byte} (hr : r.toNat < 8) (s : State) : raised (.pop r) s = underflowRaise s :=
  raised_of_operands_lt rfl (List.forall_mem_singleton.mpr hr)

theorem raised_pop_of_item {r : Byte} {s : State} (hr : r.toNat < 8) (hsp : s.x[7] ≠ 255#8) :
    raised (.pop r) s = none := (raised_pop hr s).trans (underflowRaise_eq_none.mpr hsp)

theorem raised_pop_of_empty {r : Byte} {s : State} (hr : r.toNat < 8) (hsp : s.x[7] = 255#8) :
    raised (.pop r) s = some (stackUnderflow 255#8) := (raised_pop hr s).trans (underflowRaise_of_last hsp)

theorem effect_pop_x {r : Byte} (hr : r.toNat < 8) (s : State) :
    (effect (.pop r) s).x = (popped s).x.set r.toNat (poppedByte s) := by
  rw [effect, regIndex_of_lt hr]
  rfl

theorem effect_pop {r : Byte} (hr : r.toNat < 8) {s : State} (hsp : s.x[7] ≠ 255#8) :
    effect (.pop r) s = { s with
      x := (s.x.set 7 (s.x[7] + 1#8)).set r.toNat (Memory.read s.mem (s.x[7].toNat + 1))
      pc := s.pc + 2#9 } := by
  rw [effect, regIndex_of_lt hr, poppedByte_of_item hsp]
  rfl

/-- Settles O25: with an item POP raises nothing and has the effect of `effect_pop`, and at SP 255 its check finds the
stack empty; the other two faults are the shared ones. -/
theorem popRule : Obligations.PopRule := by
  refine ⟨fun _ => rfl, fun s reg hr hsp => ?_, ?_, fun s reg hr hsp => ?_, operandFetchFaults 0x46#8⟩
  · rw [exec_of_completes (raised_pop_of_item hr hsp), effect_pop hr hsp]
  · exact badRegisterFaults (fun _ _ => rfl) (fun _ => rfl) (fun _ => rfl)
  · exact exec_of_stackUnderflow (raised_pop_of_empty hr hsp)

/-! ## The overflow point -/

theorem raised_call {r : Byte} (hr : r.toNat < 8) (s : State) :
    raised (.call r) s = (overflowRaise s).or (returnRaise s) :=
  raised_of_operands_lt rfl (List.forall_mem_singleton.mpr hr)

theorem raised_call_of_full {r : Byte} {s : State} (hr : r.toNat < 8) (hsp : s.x[7] = 0#8) :
    raised (.call r) s = some (stackOverflow 0#8) := by
  rw [raised_call hr, overflowRaise_of_zero hsp, Option.some_or]

@[simp] theorem branchEffect_mem (m : Mnemonic) (taken : Bool) (r : Byte) (s : State) :
    (branchEffect m taken r s).mem = s.mem := by cases taken <;> rfl

/-- An instruction that stores nothing leaves memory as it is (20_memory.md R74). -/
theorem effect_mem_of_no_store {i : Instr} {s : State} (h : storeAddress i s = none) : (effect i s).mem = s.mem := by
  cases i with
  | push r => cases h
  | call r => cases h
  | jeq r => exact branchEffect_mem ..
  | jne r => exact branchEffect_mem ..
  | _ => rfl

/-- PUSH and CALL store one byte, so every other byte is as before (20_memory.md R74). -/
theorem read_effect_of_no_store {i : Instr} {s : State} {a : Nat} (h : storeAddress i s ≠ some a) :
    Memory.read (effect i s).mem a = Memory.read s.mem a := by
  cases i with
  | push r => exact read_write_other _ _ fun e => h (congrArg some e.symm)
  | call r => exact read_write_other _ _ fun e => h (congrArg some e.symm)
  | _ => rw [effect_mem_of_no_store rfl]

/-- The stack check keeps stores away from address 0 (43_stack.md R231). -/
theorem storeAddress_ne_zero {i : Instr} {s : State} (h : raised i s = none) : storeAddress i s ≠ some 0 := by
  have hstack := stackRaise_of_raised h
  have hstore (hroom : overflowRaise s = none) : some s.sp.toNat ≠ some 0 := fun e =>
    overflowRaise_eq_none.mp hroom (BitVec.eq_of_toNat_eq (Option.some.inj e))
  cases i with
  | push r => exact hstore hstack
  | call r => exact hstore (Option.or_eq_none_iff.mp hstack).1
  | _ => exact nofun

theorem step_read_zero {s t : State} (h : step s = .next t) : Memory.read t.mem 0 = Memory.read s.mem 0 := by
  obtain ⟨-, rfl⟩ | ⟨r, op, -, -, rfl⟩ | ⟨i, -, -, hexec⟩ := step_cases h
  · rfl
  · rfl
  · obtain ⟨r, -, rfl⟩ | ⟨hraised, rfl⟩ := exec_cases hexec
    · rfl
    · exact read_effect_of_no_store (storeAddress_ne_zero hraised)

/-- Settles O26: at SP 0 the stack check of PUSH and CALL is the first to fail, and since it fails there no instruction
that completes stores at address 0 (`storeAddress_ne_zero`). -/
theorem stackOverflowPoint : Obligations.StackOverflowPoint :=
  ⟨fun _ _ hr hsp => ⟨exec_of_stackOverflow (raised_push_of_full hr hsp),
    exec_of_stackOverflow (raised_call_of_full hr hsp)⟩, fun _ _ => step_read_zero⟩

/-! ## The underflow point -/

theorem raised_ret (s : State) : raised .ret s = underflowRaise s := raised_of_operands_lt rfl (List.forall_mem_nil _)

/-- An instruction other than HLT that raises nothing completes with the engine state and the record untouched. -/
theorem exec_completes_untouched {i : Instr} {s : State} (hi : i ≠ .hlt) (h : raised i s = none) :
    ∃ t, exec i s = .next t ∧ t.engine = s.engine ∧ t.fault = s.fault :=
  ⟨_, exec_of_completes h, effect_engine hi s, effect_fault i s⟩

/-- Settles O27: POP and RET make the underflow check and no other, and it fails at SP 255 alone. -/
theorem stackUnderflowPoint : Obligations.StackUnderflowPoint := by
  refine ⟨fun s reg hr hsp => ⟨?_, ?_⟩, fun s reg hr hsp => ⟨?_, ?_⟩⟩
  · exact exec_of_stackUnderflow (raised_pop_of_empty hr hsp)
  · exact exec_of_stackUnderflow ((raised_ret s).trans (underflowRaise_of_last hsp))
  · exact exec_completes_untouched Instr.noConfusion (raised_pop_of_item hr hsp)
  · exact exec_completes_untouched Instr.noConfusion ((raised_ret s).trans (underflowRaise_eq_none.mpr hsp))

/-! ## PUSH and then POP -/

/-- PUSH and then POP copies the one register to the other, for every pair of registers, R7 included: the copy is all
that the two make of the registers. -/
theorem push_pop {s : State} {r1 r2 : Byte} (h1 : r1.toNat < 8) (h2 : r2.toNat < 8) (hmem : Memory.wf s.mem = true)
    (hsp : s.x[7] ≠ 0#8) :
    ∃ t u, exec (.push r1) s = .next t ∧ exec (.pop r2) t = .next u ∧ u.x = s.x.set r2.toNat s.x[r1.toNat] := by
  have hitem : (effect (.push r1) s).x[7] ≠ 255#8 := sp_pushed_ne_last hsp _
  have hbyte : poppedByte (effect (.push r1) s) = s.x[r1.toNat] :=
    (poppedByte_pushed hmem _).trans (readReg_regIndex_of_lt s h1)
  have hregs : (popped (effect (.push r1) s)).x = s.x := popped_pushed_x _ s
  refine ⟨_, _, exec_of_completes (raised_push h1 hsp), exec_of_completes (raised_pop_of_item h2 hitem), ?_⟩
  rw [effect_pop_x h2, hbyte, hregs]

/-- Settles O28: both clauses read registers of the copy `push_pop` makes, and a copy of R7 to itself restores it. -/
theorem pushThenPop : Obligations.PushThenPop := by
  refine ⟨fun s r1 r2 h1 h2 hmem hsp hne => ?_, fun s hmem hsp => ?_⟩
  · obtain ⟨t, u, hpush, hpop, hx⟩ := push_pop h1 h2 hmem hsp
    exact ⟨t, u, hpush, hpop, by simp [hx], by simp [hx, hne]⟩
  · obtain ⟨t, u, hpush, hpop, hx⟩ := push_pop (r1 := 7#8) (r2 := 7#8) (by decide) (by decide) hmem hsp
    exact ⟨t, u, hpush, hpop, by simp [hx]⟩

end Sys2Proof.Machine
end

section
/-! Control transfer (44_control.md): the jump, the two branches, CALL and RET. -/

namespace Sys2Proof.Machine

open Sys2Proof

/-- A one-register instruction without a stack check completes where its register is valid. -/
theorem exec_of_valid_register {i : Instr} {r : Byte} {s : State} (hpresent : i.present s.aluExt = true)
    (hoperands : i.regOperands = [r]) (hstack : stackRaise i s = none) (hr : r.toNat < 8) :
    exec i s = .next (effect i s) := by
  have hvalid : ∀ b ∈ i.regOperands, b.toNat < 8 := by
    rw [hoperands]
    exact List.forall_mem_singleton.mpr hr
  exact exec_of_completes ((raised_of_operands_lt hpresent hvalid).trans hstack)

/-! ## JMP -/

theorem effect_jmp {r : Byte} (hr : r.toNat < 8) (s : State) :
    effect (.jmp r) s = { s with pc := s.x[r.toNat].setWidth 9 } := by
  rw [effect, readReg_regIndex_of_lt s hr]
  rfl

/-- Settles O32: with a valid register JMP completes with the effect of `effect_jmp`; the two faults are the shared
ones. -/
theorem jmpRule : Obligations.JmpRule := by
  refine ⟨fun _ => rfl, fun s reg hr => ?_, ?_, operandFetchFaults 0x54#8⟩
  · rw [exec_of_valid_register rfl rfl rfl hr, effect_jmp hr]
  · exact badRegisterFaults (fun _ _ => rfl) (fun _ => rfl) (fun _ => rfl)

/-! ## JEQ and JNE -/

/-- A branch moves `pc` alone: to its register where it is taken, past its two bytes where it is not (40_cycle.md
R149). -/
theorem branchEffect_eq {m : Mnemonic} (hlen : ilen (opcodeOf m) = 2) (taken : Bool) {r : Byte} (hr : r.toNat < 8)
    (s : State) :
    branchEffect m taken r s = { s with pc := if taken then s.x[r.toNat].setWidth 9 else s.pc + 2#9 } := by
  cases taken with
  | true =>
    rw [branchEffect, readReg_regIndex_of_lt s hr]
    rfl
  | false =>
    rw [branchEffect, advance, hlen]
    rfl

theorem effect_jeq {r : Byte} (hr : r.toNat < 8) (s : State) :
    effect (.jeq r) s =
      { s with pc := if s.fl.getLsbD 0 = true then s.x[r.toNat].setWidth 9 else s.pc + 2#9 } :=
  branchEffect_eq rfl (flagE s.fl) hr s

theorem effect_jne {r : Byte} (hr : r.toNat < 8) (s : State) :
    effect (.jne r) s =
      { s with pc := if s.fl.getLsbD 0 = false then s.x[r.toNat].setWidth 9 else s.pc + 2#9 } := by
  rw [effect, branchEffect_eq rfl _ hr, flagE]
  simp only [Bool.not_eq_true']

/-- Settles O33: with a valid register JEQ completes, and its branch (`branchEffect_eq`) is on bit 0 of FL; the register
fault and the fetch fault are the shared ones and do not ask whether it is taken. -/
theorem jeqRule : Obligations.JeqRule := by
  refine ⟨fun _ => rfl, fun s reg hr => ?_, ?_, operandFetchFaults 0x55#8⟩
  · rw [exec_of_valid_register rfl rfl rfl hr, effect_jeq hr]
  · exact badRegisterFaults (fun _ _ => rfl) (fun _ => rfl) (fun _ => rfl)

/-- Settles O34: as JEQ, with the branch on the complement of bit 0. -/
theorem jneRule : Obligations.JneRule := by
  refine ⟨fun _ => rfl, fun s reg hr => ?_, ?_, operandFetchFaults 0x56#8⟩
  · rw [exec_of_valid_register rfl rfl rfl hr, effect_jne hr]
  · exact badRegisterFaults (fun _ _ => rfl) (fun _ => rfl) (fun _ => rfl)

/-! ## CALL -/

theorem returnRaise_of_fits {s : State} (h : s.pc.toNat + 2 ≤ 255) : returnRaise s = none := if_neg (Nat.not_lt.mpr h)

theorem returnRaise_of_past {s : State} (h : 255 < s.pc.toNat + 2) :
    returnRaise s = some (outOfRange .value (s.pc.toNat + 2)) := if_pos h

/-- With room on the stack the return address is all that CALL has left to check (60_exceptions.md R292). -/
theorem raised_call_of_room {r : Byte} {s : State} (hr : r.toNat < 8) (hsp : s.x[7] ≠ 0#8) :
    raised (.call r) s = returnRaise s := by
  rw [raised_call hr, overflowRaise_eq_none.mpr hsp, Option.none_or]

/-- The target is the register of the state after the push, in which SP is decremented. -/
theorem effect_call {r : Byte} (hr : r.toNat < 8) (s : State) :
    effect (.call r) s = { s with
      mem := Memory.write s.mem s.x[7].toNat (BitVec.ofNat 8 (s.pc.toNat + 2))
      x := s.x.set 7 (s.x[7] - 1#8)
      pc := (s.x.set 7 (s.x[7] - 1#8))[r.toNat].setWidth 9 } := by
  rw [effect, readReg_regIndex_of_lt _ hr]
  rfl

/-- Settles O30: CALL's checks come in the order register, stack, return address, and where none of them fails it has
the effect of `effect_call`. -/
theorem callRule : Obligations.CallRule := by
  refine ⟨fun _ => rfl, fun s reg hr hsp hfits => ?_, ?_, fun s reg hr hsp => ?_, fun s reg hr hsp hpast => ?_,
    operandFetchFaults 0x50#8⟩
  · have hraised := (raised_call_of_room hr hsp).trans (returnRaise_of_fits hfits)
    rw [exec_of_completes hraised, effect_call hr]
  · exact badRegisterFaults (fun _ _ => rfl) (fun _ => rfl) (fun _ => rfl)
  · exact exec_of_stackOverflow (raised_call_of_full hr hsp)
  · exact exec_of_raised ((raised_call_of_room hr hsp).trans (returnRaise_of_past hpast))

/-! ## RET -/

theorem effect_ret {s : State} (hsp : s.x[7] ≠ 255#8) :
    effect .ret s = { s with
      x := s.x.set 7 (s.x[7] + 1#8)
      pc := (Memory.read s.mem (s.x[7].toNat + 1)).setWidth 9 } := by
  rw [effect, poppedByte_of_item hsp]
  rfl

/-- A one-byte row is fetched at every address of memory, the last one included (40_cycle.md R144). -/
theorem fetch_of_ilen_one {s : State} {m : Mnemonic} (hpresent : presentUnder s.aluExt m = true)
    (hlen : ilen (opcodeOf m) = 1) (hpc : s.pc.toNat ≤ 255) (hread : Memory.read s.mem s.pc.toNat = opcodeOf m) :
    fetch s = .instr (assemble m 0#8 0#8) := by
  have hdecode := decodeOpcode_of_present hpresent
  rw [← hread] at hdecode
  have hfits : s.pc.toNat + ilen (Memory.read s.mem s.pc.toNat) ≤ 256 := by rw [hread]; omega
  rw [fetch_of_fits hdecode hfits, assemble_of_ilen_one hlen]

/-- Settles O31: RET makes the underflow check and no other, and being one byte it is fetched at 255 too. -/
theorem retRule : Obligations.RetRule := by
  refine ⟨rfl, fun s hsp => ?_, fun s hsp => ?_, fun s hrun hpc hread => ?_⟩
  · have hraised := (raised_ret s).trans (underflowRaise_eq_none.mpr hsp)
    rw [exec_of_completes hraised, effect_ret hsp]
  · exact exec_of_stackUnderflow ((raised_ret s).trans (underflowRaise_of_last hsp))
  · exact step_of_fetched hrun (fetch_of_ilen_one (m := .ret) rfl rfl hpc hread)

end Sys2Proof.Machine
end

section
/-! The order of the checks (60_exceptions.md R292): the first check that fails is the fault a step takes. -/

namespace Sys2Proof.Machine

open Sys2Proof

/-! ## The first check that fails -/

/-- The checks after the register check, in the order of 60_exceptions.md R292: which row makes which, and what it
raises. -/
theorem stackRaise_assemble (m : Mnemonic) (b1 b2 : Byte) (s : State) :
    stackRaise (assemble m b1 b2) s =
      if (m = .push ∨ m = .call) ∧ s.x[7] = 0#8 then some (stackOverflow 0#8)
      else if (m = .pop ∨ m = .ret) ∧ s.x[7] = 255#8 then some (stackUnderflow 255#8)
      else if m = .call ∧ 255 < s.pc.toNat + 2 then some (outOfRange .value (s.pc.toNat + 2))
      else none := by
  have hoverflow : overflowRaise s = if s.x[7] = 0#8 then some (stackOverflow 0#8) else none :=
    ite_congr rfl (fun h => congrArg (some ∘ stackOverflow) h) fun _ => rfl
  have hunderflow : underflowRaise s = if s.x[7] = 255#8 then some (stackUnderflow 255#8) else none :=
    ite_congr rfl (fun h => congrArg (some ∘ stackUnderflow) h) fun _ => rfl
  cases m with
  | push => simp [assemble, stackRaise, hoverflow]
  | pop => simp [assemble, stackRaise, hunderflow]
  | ret => simp [assemble, stackRaise, hunderflow]
  | call =>
    by_cases hsp : s.x[7] = 0#8
    · simp [assemble, stackRaise, hoverflow, hsp]
    · simp [assemble, stackRaise, hoverflow, hsp, returnRaise]
  | _ => simp [assemble, stackRaise]

/-- Where the fetch fails, its fault is the first. -/
theorem firstFault_of_raised {s : State} {r : Raise} {op : Option Byte} (h : fetch s = .raised r op) :
    firstFault s = some (takeFault r op s) := by
  rw [fetch_spec] at h
  by_cases hpc : 255 < s.pc.toNat
  · obtain ⟨rfl, rfl⟩ := Fetched.raised.inj ((if_pos hpc).symm.trans h)
    simp [firstFault, hpc, takeFault, outOfRange, faulted]
  · cases hd : decodeOpcode s.aluExt (Memory.read s.mem s.pc.toNat) with
    | none =>
      simp only [hpc, if_false, hd] at h
      obtain ⟨rfl, rfl⟩ := Fetched.raised.inj h
      simp only [firstFault, hpc, if_false, hd]
      rfl
    | some m =>
      simp only [hpc, if_false, hd] at h
      split at h
      · next hpast =>
        obtain ⟨rfl, rfl⟩ := Fetched.raised.inj h
        simp only [firstFault, hpc, if_false, hd, hpast, if_true]
        rfl
      · cases h

/-- Where an instruction is fetched, what it raises is the first fault. -/
theorem firstFault_of_fetched {s : State} {i : Instr} (h : fetch s = .instr i) :
    firstFault s = (raised i s).map fun r => takeFault r (some (opcodeOf (mnemonicOf i))) s := by
  obtain ⟨m, hop, hd, hfits, rfl⟩ := fetch_instr h
  have hlen : 1 ≤ ilen (opcodeOf m) := Nat.le_add_left ..
  have hpc : ¬ 255 < s.pc.toNat := by omega
  have hpresent := (present_assemble s.aluExt m (Memory.read s.mem (s.pc.toNat + 1))
    (Memory.read s.mem (s.pc.toNat + 2))).trans (decodeOpcode_some hd).2
  simp only [firstFault, hop, hd, hpc, Nat.not_lt.mpr hfits, if_false, mnemonicOf_assemble, raised, hpresent, if_true,
    operandRaise, stackRaise_assemble]
  split
  · next r hr => simp [hr, takeFault_outOfRange_byte]
  · next hr =>
    simp only [hr, Option.map_none, Option.none_or]
    split_ifs with hfull hempty hpast
    · rfl
    · rfl
    · obtain ⟨rfl, hpast⟩ := hpast
      have hlast : s.pc.toNat + 2 = 256 := by
        have : ilen (opcodeOf .call) = 2 := rfl
        omega
      rw [hlast]
      rfl
    · rfl

/-- The effect of an instruction never enters Faulted: HLT's enters Halted, and no other moves the engine. -/
theorem effect_not_faulted {s : State} (hrun : s.engine = .running) (i : Instr) : (effect i s).engine ≠ .faulted := by
  by_cases hi : i = .hlt
  · subst hi
    exact EngineState.noConfusion
  · rw [effect_engine hi, hrun]
    exact EngineState.noConfusion

/-- Settles O44: a step raises in its fetch or in the instruction fetched, and either way that is `firstFault`; where
there is none, the step is the effect of the instruction. -/
theorem firstFaultTaken : Obligations.FirstFaultTaken := by
  intro s hrun
  cases hf : fetch s with
  | raised r op =>
    rw [firstFault_of_raised hf]
    exact step_of_raised hrun hf
  | instr i =>
    rw [firstFault_of_fetched hf, step_of_fetched hrun hf]
    cases hr : raised i s with
    | some r => exact exec_of_raised hr
    | none => exact ⟨_, exec_of_completes hr, effect_not_faulted hrun i, effect_fault i s⟩

end Sys2Proof.Machine
end

section
/-! What a step can record (60_exceptions.md R280, R288), and what that makes of every launched run. -/

namespace Sys2Proof.Machine

open Sys2Proof

/-! ## The records a step can take -/

/-- The record a fault of the next step can have, and what must hold for it, row by row of 60_exceptions.md R280. -/
inductive TakenRecord (s : State) : FaultRecord → Prop
  | opcodeFetch (hpc : 255 < s.pc.toNat) : TakenRecord s ⟨.outOfRange, some .fetch, s.pc, none, some s.pc⟩
  | invalidOpcode {op : Byte} (hpc : s.pc.toNat ≤ 255) (hop : Memory.read s.mem s.pc.toNat = op)
      (hdecode : decodeOpcode s.aluExt op = none) :
      TakenRecord s ⟨.invalidOpcode, none, s.pc, some op, some (op.setWidth 9)⟩
  | operandFetch {op : Byte} (hpc : s.pc.toNat ≤ 255) (hop : Memory.read s.mem s.pc.toNat = op)
      (hdecode : (decodeOpcode s.aluExt op).isSome) (hpast : 256 < s.pc.toNat + ilen op) :
      TakenRecord s ⟨.outOfRange, some .fetch, s.pc, some op, some 256#9⟩
  | register {op r : Byte} (hpc : s.pc.toNat ≤ 255) (hop : Memory.read s.mem s.pc.toNat = op)
      (hdecode : (decodeOpcode s.aluExt op).isSome) (hr : 8 ≤ r.toNat) :
      TakenRecord s ⟨.outOfRange, some .register, s.pc, some op, some (r.setWidth 9)⟩
  | overflow {op : Byte} (hpc : s.pc.toNat ≤ 255) (hop : Memory.read s.mem s.pc.toNat = op)
      (hrow : op = opcodeOf .push ∨ op = opcodeOf .call) :
      TakenRecord s ⟨.stackOverflow, none, s.pc, some op, some 0#9⟩
  | underflow {op : Byte} (hpc : s.pc.toNat ≤ 255) (hop : Memory.read s.mem s.pc.toNat = op)
      (hrow : op = opcodeOf .pop ∨ op = opcodeOf .ret) :
      TakenRecord s ⟨.stackUnderflow, none, s.pc, some op, some 255#9⟩
  | returnAddress {op : Byte} (hpc : s.pc.toNat ≤ 255) (hop : Memory.read s.mem s.pc.toNat = op)
      (hrow : op = opcodeOf .call) (hlast : s.pc = 254#9) :
      TakenRecord s ⟨.outOfRange, some .value, s.pc, some op, some 256#9⟩

/-- The state a fault with the record `f` leaves (60_exceptions.md R288). -/
def withRecord (f : FaultRecord) (s : State) : State := { s with engine := .faulted, fault := some f }

/-- Each check of R292 that fails takes a record of its own row. -/
theorem firstFault_cases {s t : State} (h : firstFault s = some t) : ∃ f, TakenRecord s f ∧ t = withRecord f s := by
  simp only [firstFault] at h
  split at h
  · next hpc => exact ⟨_, .opcodeFetch hpc, (Option.some.inj h).symm⟩
  next hpc =>
  replace hpc := Nat.not_lt.mp hpc
  split at h
  · next hd => exact ⟨_, .invalidOpcode hpc rfl hd, (Option.some.inj h).symm⟩
  next m hd =>
  obtain ⟨hop, -⟩ := decodeOpcode_some hd
  have hopcode {n : Mnemonic} (e : m = n) : Memory.read s.mem s.pc.toNat = opcodeOf n :=
    hop.symm.trans (congrArg opcodeOf e)
  have hdecode := Option.isSome_of_mem hd
  split at h
  · next hpast => exact ⟨_, .operandFetch hpc rfl hdecode hpast, (Option.some.inj h).symm⟩
  next hfits =>
  split at h
  · next r hr =>
    have hr8 : 8 ≤ r.toNat := by simpa using List.find?_some hr
    exact ⟨_, .register hpc rfl hdecode hr8, (Option.some.inj h).symm⟩
  split at h
  · next hfull => exact ⟨_, .overflow hpc rfl (hfull.1.imp hopcode hopcode), (Option.some.inj h).symm⟩
  split at h
  · next hempty => exact ⟨_, .underflow hpc rfl (hempty.1.imp hopcode hopcode), (Option.some.inj h).symm⟩
  split at h
  · next hpast =>
    obtain ⟨rfl, hpast⟩ := hpast
    have hlen : ilen (Memory.read s.mem s.pc.toNat) = 2 := congrArg ilen hop.symm
    have hlast : s.pc = 254#9 := by bv_omega
    exact ⟨_, .returnAddress hpc rfl hop.symm hlast, (Option.some.inj h).symm⟩
  · cases h

/-- A step stays where the core has ended, takes a fault, or completes with the record untouched. -/
theorem step_fault_cases {s t : State} (h : step s = .next t) :
    (s.engine ≠ .running ∧ t = s) ∨
      (s.engine = .running ∧ ∃ f, TakenRecord s f ∧ t = withRecord f s) ∨
      (s.engine = .running ∧ t.engine ≠ .faulted ∧ t.fault = s.fault) := by
  by_cases hrun : s.engine = .running
  · have hfirst := firstFaultTaken s hrun
    cases hf : firstFault s with
    | some u =>
      simp only [hf] at hfirst
      obtain rfl := Host.Outcome.next.inj (hfirst.symm.trans h)
      exact .inr (.inl ⟨hrun, firstFault_cases hf⟩)
    | none =>
      simp only [hf] at hfirst
      obtain ⟨u, hu, hengine, hfault⟩ := hfirst
      obtain rfl := Host.Outcome.next.inj (hu.symm.trans h)
      exact .inr (.inr ⟨hrun, hengine, hfault⟩)
  · exact .inl ⟨hrun, by simpa [step_ended hrun] using h.symm⟩

theorem TakenRecord.pc_eq {s : State} {f : FaultRecord} (h : TakenRecord s f) : f.pc = s.pc := by cases h <;> rfl

/-- The record holds the opcode that was fetched, or none where there was none to fetch. -/
theorem TakenRecord.opcode_eq {s : State} {f : FaultRecord} (h : TakenRecord s f) :
    f.opcode = if 255 < s.pc.toNat then none else some (Memory.read s.mem s.pc.toNat) := by
  cases h with
  | opcodeFetch hpc => exact (if_pos hpc).symm
  | invalidOpcode hpc hop | operandFetch hpc hop | register hpc hop | overflow hpc hop | underflow hpc hop
  | returnAddress hpc hop => rw [if_neg (Nat.not_lt.mpr hpc), hop]

/-- Settles O43: a step into Faulted is `withRecord` of a record that holds `pc` and the opcode fetched. -/
theorem faultIsPrecise : Obligations.FaultIsPrecise := by
  intro s t hrun hstep hfaulted
  obtain ⟨hended, -⟩ | ⟨-, f, hf, rfl⟩ | ⟨-, hengine, -⟩ := step_fault_cases hstep
  · exact absurd hrun hended
  · exact ⟨f, rfl, hf.pc_eq, hf.opcode_eq⟩
  · exact absurd hfaulted hengine

/-- Settles O45: a record that was not there before is of a row of `TakenRecord`, and no row has the code or the kind. -/
theorem unreachableFaultsNeverTaken : Obligations.UnreachableFaultsNeverTaken := by
  intro s t f hnone hstep hf
  obtain ⟨-, rfl⟩ | ⟨-, g, hg, rfl⟩ | ⟨-, -, hfault⟩ := step_fault_cases hstep
  · cases hnone.symm.trans hf
  · obtain rfl : g = f := Option.some.inj hf
    cases hg <;> exact ⟨nofun, nofun⟩
  · cases hnone.symm.trans (hfault.symm.trans hf)

/-! ## The invariant -/

/-- With `pc` at most 256 the record a step takes is legal (60_exceptions.md R280). -/
theorem TakenRecord.legal {s : State} {f : FaultRecord} (h : TakenRecord s f) (hpc : PcLegal s) :
    RecordLegal s.aluExt f := by
  cases h with
  | opcodeFetch hpast =>
    have hend : s.pc = 256#9 := BitVec.eq_of_toNat_eq (le_antisymm hpc hpast)
    exact ⟨hend, hend⟩
  | invalidOpcode hbyte hop hdecode => exact ⟨rfl, hdecode⟩
  | operandFetch hbyte hop hdecode hpast => exact ⟨rfl, hdecode, hbyte, hpast⟩
  | @register op r hbyte hop hdecode hr =>
    have hvalue : (r.setWidth 9).toNat = r.toNat := BitVec.toNat_setWidth_of_le (by decide)
    exact ⟨hdecode, hvalue ▸ hr, hvalue ▸ Nat.le_of_lt_succ r.isLt⟩
  | overflow hbyte hop hrow => exact ⟨hrow, rfl⟩
  | underflow hbyte hop hrow => exact ⟨hrow, rfl⟩
  | returnAddress hbyte hop hrow hlast => exact ⟨hrow, rfl, hlast⟩

theorem step_faultLegal {s t : State} (hpc : PcLegal s) (h : FaultLegal s) (hstep : step s = .next t) :
    FaultLegal t := by
  obtain ⟨-, rfl⟩ | ⟨-, f, hf, rfl⟩ | ⟨hrun, hengine, hfault⟩ := step_fault_cases hstep
  · exact h
  · exact ⟨rfl, hf.pc_eq, hf.legal hpc⟩
  · cases hs : s.fault with
    | none =>
      rw [FaultLegal, hfault, hs]
      exact hengine
    | some f =>
      rw [FaultLegal, hs] at h
      cases hrun.symm.trans h.1

/-- PUSH and CALL store at SP, an address of memory, and nothing else stores (20_memory.md R74). -/
theorem effect_memWf {s : State} (h : Memory.wf s.mem = true) (i : Instr) : Memory.wf (effect i s).mem = true := by
  cases i with
  | push r => exact write_wf h s.sp.isLt
  | call r => exact write_wf h s.sp.isLt
  | _ => rwa [effect_mem_of_no_store rfl]

theorem step_memWf {s t : State} (h : Memory.wf s.mem = true) (hstep : step s = .next t) : Memory.wf t.mem = true := by
  obtain ⟨-, rfl⟩ | ⟨r, op, -, -, rfl⟩ | ⟨i, -, -, hexec⟩ := step_cases hstep
  · exact h
  · exact h
  · obtain ⟨r, -, rfl⟩ | ⟨-, rfl⟩ := exec_cases hexec
    · exact h
    · exact effect_memWf h i

theorem step_stateInv {s t : State} (h : StateInv s) (hstep : step s = .next t) : StateInv t where
  memWf := step_memWf h.memWf hstep
  flags := step_flagsLegal h.flags hstep
  pc := step_pcLegal h.pc hstep
  fault := step_faultLegal h.pc h.fault hstep

theorem resetWith_stateInv (c : Config) : StateInv (State.resetWith c) where
  memWf := rfl
  flags := .inl rfl
  pc := Nat.zero_le _
  fault := EngineState.noConfusion

/-- Loading changes memory alone, and keeps its canonical form (20_memory.md R85). -/
theorem loadImage_stateInv {image : List Byte} {s t : State} (h : StateInv s) (hload : loadImage image s = some t) :
    StateInv t := by
  unfold loadImage at hload
  split at hload
  · obtain rfl := Option.some.inj hload
    exact ⟨placeBytes_wf image 0 h.memWf, h.flags, h.pc, h.fault⟩
  · cases hload

theorem launch_stateInv {c : Config} {image : List Byte} {s : State} (h : launch c image = some s) : StateInv s :=
  loadImage_stateInv (resetWith_stateInv c) h

/-! ## Runs -/

/-- Where every step from a state with a property answers a state that has it, so does every run. -/
theorem run_keeps {M : Host.Core} {P : M.State → Prop} (hstep : ∀ s, P s → ∃ t, M.step s = .next t ∧ P t) (n : Nat)
    {s : M.State} (h : P s) : ∃ t, M.run n s = .next t ∧ P t := by
  induction n generalizing s with
  | zero => exact ⟨s, rfl, h⟩
  | succ n ih =>
    obtain ⟨u, hu, hPu⟩ := hstep s h
    obtain ⟨t, hrun, hPt⟩ := ih hPu
    exact ⟨t, by simp only [Host.Core.run, hu, hrun], hPt⟩

theorem step_next_stateInv (s : State) (h : StateInv s) : ∃ t, step s = .next t ∧ StateInv t := by
  obtain ⟨t, hstep⟩ := step_next s
  exact ⟨t, hstep, step_stateInv h hstep⟩

/-- Under the invariant the host can tell the two ends apart by the record (60_exceptions.md R301). -/
theorem faulted_iff_of_faultLegal {s : State} (h : FaultLegal s) : s.engine = .faulted ↔ s.fault.isSome = true := by
  unfold FaultLegal at h
  cases hf : s.fault with
  | none => simpa [hf] using h
  | some f =>
    rw [hf] at h
    exact iff_of_true h.1 rfl

/-- Settles O54: the launch meets the invariant, every step keeps it, and it ties Faulted to the record. -/
theorem runEndsAreDistinct : Obligations.RunEndsAreDistinct := by
  intro c image n s hlaunch
  obtain ⟨t, hrun, hinv⟩ := run_keeps (M := core) step_next_stateInv n (launch_stateInv hlaunch)
  exact ⟨t, hrun, hinv, faulted_iff_of_faultLegal hinv.fault⟩

end Sys2Proof.Machine
end

section
/-! The invariant (10_state.md sections 2 to 4, 60_exceptions.md section 1), and the frame of memory (20_memory.md
R74). -/

namespace Sys2Proof.Machine

open Sys2Proof

/-- Settles O53: a step keeps the four fields of the invariant one by one (`step_memWf`, `step_flagsLegal`,
`step_pcLegal`, `step_faultLegal`); the record's field needs that of `pc`. -/
theorem stepKeepsInvariant : Obligations.StepKeepsInvariant := fun _ _ => step_stateInv

/-- Settles O52: reset meets the invariant in every configuration, and a launch adds a load, which keeps it. -/
theorem resetMeetsInvariant : Obligations.ResetMeetsInvariant :=
  ⟨resetWith_stateInv Config.normative, fun _ _ _ => launch_stateInv⟩

/-- Settles O40: a fault leaves memory, and an effect stores at most at the store address. -/
theorem memoryFrame : Obligations.MemoryFrame := by
  intro i s t h
  obtain ⟨r, -, rfl⟩ | ⟨-, rfl⟩ := exec_cases h
  · exact ⟨fun _ _ => rfl, fun _ => rfl⟩
  · exact ⟨fun _ => read_effect_of_no_store, effect_mem_of_no_store⟩

end Sys2Proof.Machine
end

section
/-! The frame of the registers (10_state.md R37). -/

namespace Sys2Proof.Machine

open Sys2Proof

theorem regIndex_ne {b : Byte} (hb : b.toNat < 8) {r : Fin 8} (h : r.val ≠ b.toNat) : regIndex b ≠ r := by
  rw [regIndex_of_lt hb]
  exact fun e => h (congrArg Fin.val e.symm)

/-- An ALU output goes to its register or to FL (42_alu.md R190). -/
theorem readReg_writeAluOut_ne (s : State) {i j : Fin 8} (out : AluOut) (h : i ≠ j) :
    readReg (writeAluOut i out s) j = readReg s j := by
  cases out with
  | res v => exact readReg_writeReg_ne s v h
  | fl v => rfl

theorem readReg_branchEffect (m : Mnemonic) (taken : Bool) (b : Byte) (s : State) (r : Fin 8) :
    readReg (branchEffect m taken b s) r = readReg s r := by cases taken <;> rfl

/-- The effect of an instruction reaches the registers of its row alone: its first operand's, SP's, both, or none. -/
theorem readReg_effect_of_not_written {i : Instr} {s : State} (hraised : raised i s = none) {r : Fin 8}
    (h : r.val ∉ regsWritten i) : readReg (effect i s) r = readReg s r := by
  have hoperands := operands_lt_of_raised hraised
  cases i with
  | ldi a v => exact readReg_writeReg_ne s v (regIndex_ne (hoperands a List.mem_cons_self) (List.ne_of_not_mem_cons h))
  | add a b | sub a b | mul a b | and a b | or a b | xor a b =>
    exact readReg_writeAluOut_ne s _ (regIndex_ne (hoperands a List.mem_cons_self) (List.ne_of_not_mem_cons h))
  | push a | call a | ret =>
    have hsp : spIndex ≠ r := regIndex_ne (b := 7#8) (by decide) (List.ne_of_not_mem_cons h)
    exact readReg_writeReg_ne _ _ hsp
  | pop a =>
    have hsp : spIndex ≠ r := regIndex_ne (b := 7#8) (by decide) (List.ne_of_not_mem_cons h)
    have ha : regIndex a ≠ r := regIndex_ne (hoperands a List.mem_cons_self)
      (List.ne_of_not_mem_cons (List.not_mem_of_not_mem_cons h))
    exact (readReg_writeReg_ne (popped s) _ ha).trans (readReg_writeReg_ne s _ hsp)
  | jeq a | jne a => exact readReg_branchEffect ..
  | prn a | hlt | cmp a b | jmp a => rfl

/-- Settles O38: a fault leaves the registers, and an effect writes those of its row. -/
theorem registersWrittenOnlyAsListed : Obligations.RegistersWrittenOnlyAsListed := by
  intro i s t h r hr
  obtain ⟨raise, -, rfl⟩ | ⟨hraised, rfl⟩ := exec_cases h
  · rfl
  · exact readReg_effect_of_not_written hraised hr

end Sys2Proof.Machine
end

section
/-! CALL and then RET (44_control.md R257). -/

namespace Sys2Proof.Machine

open Sys2Proof

theorem raised_call_of_fits {r : Byte} {s : State} (hr : r.toNat < 8) (hsp : s.x[7] ≠ 0#8)
    (hfits : s.pc.toNat + 2 ≤ 255) : raised (.call r) s = none :=
  (raised_call_of_room hr hsp).trans (returnRaise_of_fits hfits)

/-- As a 9-bit `pc` the return address is the exact sum (44_control.md R251). -/
theorem zext9_returnByte_toNat {s : State} (h : s.pc.toNat + 2 ≤ 255) :
    (zext9 (returnByte s)).toNat = s.pc.toNat + 2 := by
  rw [zext9, BitVec.toNat_setWidth_of_le (by decide), returnByte, BitVec.toNat_ofNat, Nat.mod_eq_of_lt (by omega)]

/-- Settles O35: RET pops the byte that CALL pushed, the return address, and puts SP back where CALL found it. -/
theorem callThenRet : Obligations.CallThenRet := by
  intro s r hr hmem hsp hfits
  have hitem : (effect (.call r) s).sp ≠ 255#8 := sp_pushed_ne_last hsp _
  have hret : raised .ret (effect (.call r) s) = none := (raised_ret _).trans (underflowRaise_eq_none.mpr hitem)
  have htarget : poppedByte (effect (.call r) s) = returnByte s := poppedByte_pushed hmem _
  have hcall := raised_call_of_fits hr hsp hfits
  refine ⟨_, _, exec_of_completes hcall, exec_of_completes hret, ?_, popped_pushed_x _ s⟩
  rw [effect, jumpTo_pc, htarget, zext9_returnByte_toNat hfits]

end Sys2Proof.Machine
end

section
/-! The opcode bytes from 0xC0 on (30_encoding.md R112). -/

namespace Sys2Proof.Machine

open Sys2Proof

theorem ilen_of_high {op : Byte} (h : 0xC0 ≤ op.toNat) : ilen op = 4 := by
  have hbyte := op.isLt
  have hmask := Nat.and_two_pow_sub_one_eq_mod (op.toNat >>> 6) 2
  simp only [ilen, BitVec.toNat_and, BitVec.toNat_ushiftRight, BitVec.toNat_ofNat, Nat.reducePow, Nat.reduceMod,
    Nat.reduceSub, Nat.shiftRight_eq_div_pow] at hmask ⊢
  omega

/-- No row has a fourth byte, so a byte whose length is 4 names none. -/
theorem decodeOpcode_of_ilen_four {op : Byte} (h : ilen op = 4) (aluExt : Bool) : decodeOpcode aluExt op = none := by
  by_contra hsome
  obtain ⟨m, -, rfl⟩ := decodeOpcode_isSome_iff.mp (Option.isSome_iff_ne_none.mpr hsome)
  have hrow := ilen_opcodeOf_cases m
  omega

theorem decode_of_invalid_opcode {aluExt : Bool} {op : Byte} (h : decodeOpcode aluExt op = none) (rest : List Byte) :
    decode aluExt (op :: rest) = .rejected (.invalidOpcode op) := by
  simp only [decode, h]

/-- Settles O5: the length of such a byte is 4, which is no row's, so the byte is an invalid opcode like any other. -/
theorem highOpcodesIllegal : Obligations.HighOpcodesIllegal := by
  intro aluExt op hhigh
  have hlen := ilen_of_high hhigh
  have hillegal := decodeOpcode_of_ilen_four hlen
  refine ⟨hlen, hillegal aluExt, decode_of_invalid_opcode (hillegal aluExt), fun s hrun hpc hread => ?_⟩
  subst hread
  exact step_of_invalid_opcode hrun hpc (hillegal s.aluExt)

end Sys2Proof.Machine
end

section
/-! Progress (40_cycle.md R151). -/

namespace Sys2Proof.Machine

open Sys2Proof

/-- The instruction takes one of the multiplexer's inputs `REG` and `STK` (40_cycle.md R149). -/
def TransfersControl (i : Instr) (s : State) : Prop :=
  i = .ret ∨ ∃ r, i = .jmp r ∨ i = .call r ∨ (i = .jeq r ∧ s.fl.getLsbD 0 = true) ∨
    (i = .jne r ∧ s.fl.getLsbD 0 = false)

theorem nextPc_of_no_transfer {i : Instr} {s : State} (h : ¬ TransfersControl i s) : nextPc i s = seqPc i s := by
  cases i with
  | ret => exact absurd (.inl rfl) h
  | jmp r => exact absurd (.inr ⟨r, .inl rfl⟩) h
  | call r => exact absurd (.inr ⟨r, .inr (.inl rfl)⟩) h
  | jeq r => exact if_neg fun hE => h (.inr ⟨r, .inr (.inr (.inl ⟨rfl, hE⟩))⟩)
  | jne r => exact if_neg fun hE => h (.inr ⟨r, .inr (.inr (.inr ⟨rfl, hE⟩))⟩)
  | _ => rfl

/-- The input `SEQ` of a fetched instruction is never its own address: its length is at least 1. -/
theorem seqPc_ne_pc {i : Instr} {s : State} (h : fetch s = .instr i) : seqPc i s ≠ s.pc := by
  intro hstay
  have hsum := seqPc_toNat (fetch_instr_fits h)
  rw [hstay, encode, List.length_cons] at hsum
  omega

/-- Settles O11: a step that does not fault is the effect of the instruction it fetched, whose `pc` is the
multiplexer's; and the input `SEQ` moves on. -/
theorem forwardProgress : Obligations.ForwardProgress := by
  intro s hrun
  obtain ⟨t, hstep⟩ := step_next s
  refine ⟨t, hstep, or_iff_not_imp_left.mpr fun hok => ?_⟩
  obtain ⟨i, hfetch, hraised, rfl⟩ := step_completed hrun hstep hok
  obtain ⟨rest, hdecode⟩ := decode_codeBytes hfetch
  refine ⟨i, rest, hdecode, exec_of_completes hraised, fun hstay => ?_⟩
  by_contra hsequential
  rw [effect_pc hraised, nextPc_of_no_transfer hsequential] at hstay
  exact seqPc_ne_pc hfetch hstay

end Sys2Proof.Machine
end

section
/-! The word the host places (notes/assumptions/12.md): the code of the state begins with its bytes, and the
configuration has its row. -/

namespace Sys2Proof.Machine

open Sys2Proof

/-! ## The bytes -/

theorem getElem_bytesFrom (mem : Memory) (a n k : Nat) (hk : k < (bytesFrom mem a n).length) :
    (bytesFrom mem a n)[k] = Memory.read mem (a + k) := by
  induction n generalizing a k with
  | zero => cases hk
  | succ n ih =>
    cases k with
    | zero => rfl
    | succ k =>
      simp only [bytesFrom, List.getElem_cons_succ, ih]
      rw [Nat.add_right_comm, Nat.add_assoc]

/-- The bytes of memory from `a` on begin with the bytes placed there. -/
theorem isPrefix_bytesFrom_placeBytes {m : Memory} (h : Memory.wf m = true) {a n : Nat} {bs : List Byte}
    (hfits : a + bs.length ≤ memSize) (hn : bs.length ≤ n) : bs <+: bytesFrom (placeBytes m a bs) a n := by
  refine List.prefix_iff_getElem.mpr ⟨by rwa [length_bytesFrom], fun k hk => ?_⟩
  rw [getElem_bytesFrom, read_placeBytes h, if_pos (by omega), Nat.add_sub_cancel_left, List.getD_eq_getElem _ _ hk]

theorem isPrefix_codeBytes_withFetchWord {s : State} (hmem : Memory.wf s.mem = true) (hpc : s.pc.toNat + 3 ≤ memSize)
    (nbits w : Nat) : tableBytes nbits w <+: codeBytes (s.withFetchWord nbits w) :=
  isPrefix_bytesFrom_placeBytes hmem hpc (Nat.le_sub_of_add_le' hpc)

/-! ## The configuration -/

theorem isAluExtOpcode_opcodeOf (m : Mnemonic) : isAluExtOpcode (opcodeOf m) = (opcodeMap m).aluExtOnly := by
  cases m <;> decide

/-- A row is present where its own opcode has turned `ALU_EXT` on if it needs it. -/
theorem presentUnder_or_isAluExtOpcode (aluExt : Bool) (m : Mnemonic) :
    presentUnder (aluExt || isAluExtOpcode (opcodeOf m)) m = true := by
  rw [presentUnder, isAluExtOpcode_opcodeOf]
  cases (opcodeMap m).aluExtOnly <;> simp

/-! ## The step -/

theorem decode_of_decodeTableWord {nbits w : Nat} {i : Instr} (h : decodeTableWord nbits w = some i) :
    ∃ rest, decode true (tableBytes nbits w) = .instr i rest := by
  unfold decodeTableWord at h
  split at h
  · next j rest hdecode => exact ⟨rest, Option.some.inj h ▸ hdecode⟩
  · cases h

/-- The code of the state with the word placed decodes to the word's instruction. -/
theorem decode_codeBytes_withFetchWord {s : State} (hmem : Memory.wf s.mem = true) (hpc : s.pc.toNat + 3 ≤ memSize)
    {nbits w : Nat} {i : Instr} (h : decodeTableWord nbits w = some i) :
    ∃ rest, decode (s.withFetchWord nbits w).aluExt (codeBytes (s.withFetchWord nbits w)) = .instr i rest := by
  obtain ⟨tail, htable⟩ := decode_of_decodeTableWord h
  obtain ⟨m, b1, b2, -, rfl, hword⟩ := wordBytes_of_decode htable
  obtain ⟨more, hcode⟩ := isPrefix_codeBytes_withFetchWord hmem hpc nbits w
  have hhead : (tableBytes nbits w).head? = some (opcodeOf m) := by
    rw [hword, ← encode_assemble, encode, mnemonicOf_assemble]
    rfl
  have hpresent : presentUnder (s.withFetchWord nbits w).aluExt m = true := by
    rw [State.withFetchWord, hhead]
    exact presentUnder_or_isAluExtOpcode s.aluExt m
  rw [← hcode, hword, List.append_assoc]
  exact ⟨_, decode_wordBytes hpresent b1 b2 _⟩

/-- Settles O51: reset is Running at address 0 of an empty memory, where the placed word fits, and the step runs what
its code decodes to. -/
theorem placedWordRuns : Obligations.PlacedWordRuns := by
  intro c nbits w i h
  obtain ⟨rest, hdecode⟩ := decode_codeBytes_withFetchWord (resetWith_mem_wf c) (by decide : 0 + 3 ≤ memSize) h
  exact stepRunsDecodedInstruction _ i rest rfl hdecode

end Sys2Proof.Machine
end
